-- ==== Sys2Proof/Word.lean ====
section
/-! DEFINITION. The word types of the block's ports, the target selector and the plainest byte arithmetic. -/

namespace Sys2Proof

/-- A byte is 8 bits (00_scope.md R11). -/
abbrev Byte := BitVec 8

/-- The command word CMD[15:0] (00_scope.md R6 `CMD_W`). -/
abbrev Cmd := BitVec 16

/-- The operand word ARG[63:0] and the result word RDATA[63:0] (00_scope.md R6 `ARG_W`, `RDATA_W`). -/
abbrev Word := BitVec 64

/-- The target frame-buffer unit of a command: CMD bit 8, 0 = `TX`, 1 = `RX` (30_encoding.md R71). -/
inductive Target where
  | tx
  | rx
deriving DecidableEq, Repr

/-- The bit that selects a target (30_encoding.md R71). -/
def Target.bit : Target → BitVec 1
  | .tx => 0
  | .rx => 1

end Sys2Proof
end

