-- ==== Sys2Proof/Syntax.lean ====
section
/-! DEFINITION. The commands of the block: one constructor per row of spec/opcode_table.json (30_encoding.md R73). -/

namespace Sys2Proof

/-- A host command. `t` is the target bit of the command word (30_encoding.md R71), present in every command word and so in
every constructor; a command whose `t` column in R73 is "0" is well formed only with `t = tx` (WellFormed.lean). The operands
have exactly the widths of their slices of ARG (30_encoding.md R76). -/
inductive Instr where
  /-- RESET c, d (40_frame_control.md R101) -/
  | reset (t : Target) (c d : Byte)
  /-- WR_U8 v (41_writes.md R111) -/
  | wrU8 (t : Target) (v : BitVec 8)
  /-- WR_U16 v (R112) -/
  | wrU16 (t : Target) (v : BitVec 16)
  /-- WR_U32 v (R113) -/
  | wrU32 (t : Target) (v : BitVec 32)
  /-- WR_I8 v (R114) -/
  | wrI8 (t : Target) (v : BitVec 8)
  /-- WR_I16 v (R115) -/
  | wrI16 (t : Target) (v : BitVec 16)
  /-- WR_I32 v (R116) -/
  | wrI32 (t : Target) (v : BitVec 32)
  /-- WR_F32 v, raw binary32 bits (R117) -/
  | wrF32 (t : Target) (v : BitVec 32)
  /-- WR_F64 v, raw binary64 bits (R118) -/
  | wrF64 (t : Target) (v : BitVec 64)
  /-- RD_U8 (42_reads.md R131) -/
  | rdU8 (t : Target)
  /-- RD_U16 (R132) -/
  | rdU16 (t : Target)
  /-- RD_U32 (R133) -/
  | rdU32 (t : Target)
  /-- RD_I8 (R134) -/
  | rdI8 (t : Target)
  /-- RD_I16 (R135) -/
  | rdI16 (t : Target)
  /-- RD_I32 (R136) -/
  | rdI32 (t : Target)
  /-- RD_F32 (R137) -/
  | rdF32 (t : Target)
  /-- RD_F64 (R138) -/
  | rdF64 (t : Target)
  /-- RD_U8_AT off (R141) -/
  | rdU8At (t : Target) (off : BitVec 16)
  /-- RD_U32_AT off (R142) -/
  | rdU32At (t : Target) (off : BitVec 16)
  /-- RD_F64_AT off (R143) -/
  | rdF64At (t : Target) (off : BitVec 16)
  /-- GET_DEV (43_accessors_encodings.md R160) -/
  | getDev (t : Target)
  /-- GET_CMD (R161) -/
  | getCmd (t : Target)
  /-- GET_LEN (R162) -/
  | getLen (t : Target)
  /-- RD_B64 k (R166) -/
  | rdB64 (t : Target) (k : BitVec 16)
  /-- FEED b (44_deframer.md R180) -/
  | feed (t : Target) (b : Byte)
  /-- RD_STATUS (45_status_diag.md R210) -/
  | rdStatus (t : Target)
  /-- RD_DIAG (R211) -/
  | rdDiag (t : Target)
  /-- CLR_DIAG m (R212) -/
  | clrDiag (t : Target) (m : BitVec 4)
deriving DecidableEq, Repr

end Sys2Proof
end

