-- ==== Sys2Proof/WellFormed.lean ====
section
/-! DEFINITION. Which commands are legal: as terms of `Instr`, and as command words (30_encoding.md R73, R75). -/

namespace Sys2Proof

/-- The target a command names. -/
def Instr.target : Instr → Target
  | .reset t _ _ => t
  | .wrU8 t _ | .wrI8 t _ => t
  | .wrU16 t _ | .wrI16 t _ => t
  | .wrU32 t _ | .wrI32 t _ | .wrF32 t _ => t
  | .wrF64 t _ => t
  | .rdU8 t | .rdU16 t | .rdU32 t | .rdI8 t | .rdI16 t | .rdI32 t | .rdF32 t | .rdF64 t => t
  | .rdU8At t _ | .rdU32At t _ | .rdF64At t _ => t
  | .getDev t | .getCmd t | .getLen t => t
  | .rdB64 t _ => t
  | .feed t _ => t
  | .rdStatus t | .rdDiag t => t
  | .clrDiag t _ => t

/-- The `t` column of 30_encoding.md R73 is "0": RESET, every WR_*, FEED, RD_STATUS, RD_DIAG and CLR_DIAG (R75 condition 3). -/
def Instr.txOnly : Instr → Bool
  | .reset _ _ _ => true
  | .wrU8 _ _ | .wrI8 _ _ => true
  | .wrU16 _ _ | .wrI16 _ _ => true
  | .wrU32 _ _ | .wrI32 _ _ | .wrF32 _ _ => true
  | .wrF64 _ _ => true
  | .rdU8 _ | .rdU16 _ | .rdU32 _ | .rdI8 _ | .rdI16 _ | .rdI32 _ | .rdF32 _ | .rdF64 _ => false
  | .rdU8At _ _ | .rdU32At _ _ | .rdF64At _ _ => false
  | .getDev _ | .getCmd _ | .getLen _ => false
  | .rdB64 _ _ => false
  | .feed _ _ => true
  | .rdStatus _ | .rdDiag _ => true
  | .clrDiag _ _ => true

/-- A command term is well formed when its target is one its opcode admits (30_encoding.md R75 condition 3). Conditions 1 and
2 of R75 are about command words that are no term of `Instr`; `legalCmd` below states all three. -/
def Instr.wellFormed (i : Instr) : Bool :=
  !i.txOnly || decide (i.target = .tx)

/-- `WellFormed i`: the command has a legal encoding. -/
abbrev WellFormed (i : Instr) : Prop := i.wellFormed = true

/-- The opcodes of 30_encoding.md R73 whose `t` column is "any". -/
def anyTargetOps : List (BitVec 8) :=
  [0x20, 0x21, 0x22, 0x24, 0x25, 0x26, 0x2A, 0x2B] ++ [0x30, 0x32, 0x3B] ++ [0x41, 0x42, 0x43] ++ [0x50]

/-- The opcodes of 30_encoding.md R73 whose `t` column is "0". -/
def txOnlyOps : List (BitVec 8) :=
  [0x01] ++ [0x10, 0x11, 0x12, 0x14, 0x15, 0x16, 0x1A, 0x1B] ++ [0x60, 0x61, 0x62, 0x63]

/-- A command word is legal when none of the three conditions of 30_encoding.md R75 holds, written from R75 alone and not from
the decoder: `rsv = CMD[15:9]` is 0, `op = CMD[7:0]` is assigned, and `t = CMD[8]` is 0 where R73 says so. -/
def legalCmd (cmd : Cmd) : Bool :=
  (cmd.extractLsb' 9 7 == 0) &&
    (anyTargetOps.contains (cmd.extractLsb' 0 8) ||
      (txOnlyOps.contains (cmd.extractLsb' 0 8) && (cmd.extractLsb' 8 1 == 0)))

end Sys2Proof
end

