-- ==== Sys2Proof/Decode.lean ====
section
/-! DEFINITION. The decoder, total on every pair (CMD, ARG), and the encoder, both from 30_encoding.md R70 to R76. -/

namespace Sys2Proof

/-- Why a command word is illegal: the three conditions of 30_encoding.md R75, in its order. -/
inductive IllegalReason where
  /-- R75 condition 1: `rsv != 0` -/
  | reservedBits
  /-- R75 condition 2: `op` is not one of the 28 opcodes -/
  | unassignedOp
  /-- R75 condition 3: `t = 1` where the opcode's `t` column is "0" -/
  | targetNotAllowed
deriving DecidableEq, Repr

/-- `op = CMD[7:0]` (30_encoding.md R71). -/
def cmdOp (cmd : Cmd) : BitVec 8 := cmd.extractLsb' 0 8

/-- `t = CMD[8]` (30_encoding.md R71). -/
def cmdTarget (cmd : Cmd) : Target := if cmd.extractLsb' 8 1 = 0 then .tx else .rx

/-- `rsv = CMD[15:9]` (30_encoding.md R71). -/
def cmdRsv (cmd : Cmd) : BitVec 7 := cmd.extractLsb' 9 7

/-- The slice `ARG[lo+n-1:lo]`: the operand slices of 30_encoding.md R76. -/
def argSlice (arg : Word) (lo n : Nat) : BitVec n := arg.extractLsb' lo n

/-- The opcode map (30_encoding.md R73), with each command's operands taken from ARG as R76 says. -/
def decodeOp (op : BitVec 8) (t : Target) (arg : Word) : Option Instr :=
  match op with
  | 0x01#8 => some (.reset t (argSlice arg 0 8) (argSlice arg 8 8))
  | 0x10#8 => some (.wrU8 t (argSlice arg 0 8))
  | 0x11#8 => some (.wrU16 t (argSlice arg 0 16))
  | 0x12#8 => some (.wrU32 t (argSlice arg 0 32))
  | 0x14#8 => some (.wrI8 t (argSlice arg 0 8))
  | 0x15#8 => some (.wrI16 t (argSlice arg 0 16))
  | 0x16#8 => some (.wrI32 t (argSlice arg 0 32))
  | 0x1A#8 => some (.wrF32 t (argSlice arg 0 32))
  | 0x1B#8 => some (.wrF64 t (argSlice arg 0 64))
  | 0x20#8 => some (.rdU8 t)
  | 0x21#8 => some (.rdU16 t)
  | 0x22#8 => some (.rdU32 t)
  | 0x24#8 => some (.rdI8 t)
  | 0x25#8 => some (.rdI16 t)
  | 0x26#8 => some (.rdI32 t)
  | 0x2A#8 => some (.rdF32 t)
  | 0x2B#8 => some (.rdF64 t)
  | 0x30#8 => some (.rdU8At t (argSlice arg 0 16))
  | 0x32#8 => some (.rdU32At t (argSlice arg 0 16))
  | 0x3B#8 => some (.rdF64At t (argSlice arg 0 16))
  | 0x41#8 => some (.getDev t)
  | 0x42#8 => some (.getCmd t)
  | 0x43#8 => some (.getLen t)
  | 0x50#8 => some (.rdB64 t (argSlice arg 0 16))
  | 0x60#8 => some (.feed t (argSlice arg 0 8))
  | 0x61#8 => some (.rdStatus t)
  | 0x62#8 => some (.rdDiag t)
  | 0x63#8 => some (.clrDiag t (argSlice arg 0 4))
  | _ => none

/-- Decode a transaction (CMD, ARG): an instruction, or the condition of 30_encoding.md R75 that makes it illegal. -/
def decode (cmd : Cmd) (arg : Word) : Except IllegalReason Instr :=
  if cmdRsv cmd = 0 then
    match decodeOp (cmdOp cmd) (cmdTarget cmd) arg with
    | some i => if i.wellFormed then .ok i else .error .targetNotAllowed
    | none => .error .unassignedOp
  else .error .reservedBits

/-- The opcode of a command (30_encoding.md R73). -/
def Instr.opcode : Instr → BitVec 8
  | .reset _ _ _ => 0x01
  | .wrU8 _ _ => 0x10
  | .wrU16 _ _ => 0x11
  | .wrU32 _ _ => 0x12
  | .wrI8 _ _ => 0x14
  | .wrI16 _ _ => 0x15
  | .wrI32 _ _ => 0x16
  | .wrF32 _ _ => 0x1A
  | .wrF64 _ _ => 0x1B
  | .rdU8 _ => 0x20
  | .rdU16 _ => 0x21
  | .rdU32 _ => 0x22
  | .rdI8 _ => 0x24
  | .rdI16 _ => 0x25
  | .rdI32 _ => 0x26
  | .rdF32 _ => 0x2A
  | .rdF64 _ => 0x2B
  | .rdU8At _ _ => 0x30
  | .rdU32At _ _ => 0x32
  | .rdF64At _ _ => 0x3B
  | .getDev _ => 0x41
  | .getCmd _ => 0x42
  | .getLen _ => 0x43
  | .rdB64 _ _ => 0x50
  | .feed _ _ => 0x60
  | .rdStatus _ => 0x61
  | .rdDiag _ => 0x62
  | .clrDiag _ _ => 0x63

/-- The operand word of a command, with every bit that 30_encoding.md R76 does not name zero. -/
def Instr.arg : Instr → Word
  | .reset _ c d => (d ++ c : BitVec 16).setWidth 64
  | .wrU8 _ v | .wrI8 _ v => v.setWidth 64
  | .wrU16 _ v | .wrI16 _ v => v.setWidth 64
  | .wrU32 _ v | .wrI32 _ v | .wrF32 _ v => v.setWidth 64
  | .wrF64 _ v => v
  | .rdU8 _ | .rdU16 _ | .rdU32 _ | .rdI8 _ | .rdI16 _ | .rdI32 _ | .rdF32 _ | .rdF64 _ => 0
  | .rdU8At _ off | .rdU32At _ off | .rdF64At _ off => off.setWidth 64
  | .getDev _ | .getCmd _ | .getLen _ => 0
  | .rdB64 _ k => k.setWidth 64
  | .feed _ b => b.setWidth 64
  | .rdStatus _ | .rdDiag _ => 0
  | .clrDiag _ m => m.setWidth 64

/-- The command word `{7'b0, t, op}` (30_encoding.md R80). -/
def cmdWord (t : Target) (op : BitVec 8) : Cmd := ((0#7 ++ t.bit) ++ op : BitVec 16)

/-- The words (CMD, ARG) of a well-formed command (30_encoding.md R80). -/
def encode (i : Instr) : Cmd × Word := (cmdWord i.target i.opcode, i.arg)

/-- The access width in bytes of a write or read, from `wcode = op[1:0]`: `w = 1 << wcode` (30_encoding.md R72). -/
def opWidth (op : BitVec 8) : Nat := 1 <<< (op.extractLsb' 0 2).toNat

/-- The type sub-field `op[3:2]` of a write or read (30_encoding.md R72): 0 unsigned, 1 signed, 2 float, 3 none. -/
def opType (op : BitVec 8) : Nat := (op.extractLsb' 2 2).toNat

/-- `class = op[7:4]` (30_encoding.md R72). -/
def opClass (op : BitVec 8) : Nat := (op.extractLsb' 4 4).toNat

/-- An instruction given as a number, CMD in bits 15..0 and ARG in the bits from 16 on; bits at and above `nbits` read 0. -/
def decodeTableWord (nbits w : Nat) : Option Instr :=
  match decode (BitVec.ofNat 16 (w % 2 ^ nbits)) (BitVec.ofNat 64 (w % 2 ^ nbits / 65536)) with
  | .ok i => some i
  | .error _ => none

end Sys2Proof
end

