-- ==== Sys2Proof/Config.lean ====
section
/-! DEFINITION. The block's fixed parameters (00_scope.md R6), each named once so that a correction is one edit, the one open
parameter, and the one free value. -/

namespace Sys2Proof.Config

/-- `START_MARKER` (00_scope.md R6). -/
def startMarker : Byte := 0xFF

/-- `HDR_LEN`, the header's bytes: marker, device id, command id, length (00_scope.md R6). -/
def hdrLen : Nat := 4

/-- `FRAME_MAX`, header included; also the size of a frame buffer (00_scope.md R6, 10_state.md R21). -/
def frameMax : Nat := 255

/-- `PAYLOAD_MAX = FRAME_MAX - HDR_LEN` (00_scope.md R6). -/
def payloadMax : Nat := 251

/-- `DEFAULT_DEV` (00_scope.md R6). -/
def defaultDev : Byte := 1

/-- `RESET_CMD` (00_scope.md R6, decision D15). -/
def resetCmd : Byte := 0

/-- `LATENCY`, the cycles from command to response: open, and no rule of the spec reads it (00_scope.md R6, R7), so nothing
in the model does. Log 12. -/
opaque latency : Nat

/-- A free value: the byte that a read takes from an offset of a frame buffer that does not exist, 255 or more (20_memory.md R50).
The spec states none, and a read reaches such an offset only where BLEN exceeds 255, which 10_state.md R24 excludes. Log 6. -/
opaque absentByte : Nat → Byte

end Sys2Proof.Config
end

