-- ==== Sys2Proof/Machine/State.lean ====
section
/-! DEFINITION. The state of the block as plain data (10_state.md R20), the machine right after reset, and the reasons a step
can stop. -/

namespace Sys2Proof.Machine

/-- The bytes of one frame buffer: (offset, byte) pairs, offsets strictly rising, none equal to what an unlisted offset reads
as (`Memory.wf`). Offsets are 0..254 (20_memory.md R50). -/
abbrev Memory := List Host.Cell

/-- A frame-buffer unit (10_state.md R21): the buffer and the read cursor. The length is `buf[3]` and has no second copy (R23). -/
structure Fbu where
  buf : Memory
  cur : BitVec 8
deriving DecidableEq, Repr

/-- The five values of `DFR.state` (10_state.md R28). -/
inductive DfrState where
  /-- scanning for `0xFF` -/
  | start
  /-- the next byte is the device id -/
  | device
  /-- the next byte is the command id -/
  | command
  /-- the next byte is the declared length -/
  | length
  /-- the next byte is a payload byte -/
  | data
deriving DecidableEq, Repr

/-- The deframer's registers (10_state.md R27). -/
structure Dfr where
  state : DfrState
  capDev : Byte
  capCmd : Byte
  capLen : Byte
deriving DecidableEq, Repr

/-- The response codes (60_exceptions.md R221). -/
inductive RespCode where
  | ok
  | oversizeWrite
  | outOfRangeRead
  | illegalOp
deriving DecidableEq, Repr

/-- The response of one transaction: `Resp = (RDATA[63:0], RESP[1:0], DONE)` (00_scope.md R8). -/
structure Resp where
  rdata : Word
  code : RespCode
  done : Bool
deriving DecidableEq, Repr

/-- What is presented on the block's ports at one time (10_state.md R33). -/
inductive Input where
  /-- a host command: `cmd_valid` with `cmd` and `arg` -/
  | host (cmd : Cmd) (arg : Word)
  /-- a stream byte: `in_valid` with `in_byte` -/
  | stream (b : Byte)
  /-- a stream byte and a host command in the same cycle (20_memory.md R60) -/
  | both (b : Byte) (cmd : Cmd) (arg : Word)
  /-- `rst` asserted (70_reset_and_hazards.md R250) -/
  | rst
deriving DecidableEq, Repr

/-- The whole state: `(TX, RX, DFR, DIAG)` (10_state.md R20), the outputs that the last transaction left (R33), and the model's
own queue of what the ports still present (log 1). -/
structure State where
  /-- `TX`, the host-owned frame-buffer unit -/
  tx : Fbu
  /-- `RX`, the deframer-owned frame-buffer unit -/
  rx : Fbu
  /-- the deframer's registers -/
  dfr : Dfr
  /-- the sticky diagnostic register (10_state.md R31) -/
  diag : BitVec 8
  /-- the last transaction's response: outputs `rdata`, `resp`, `done` (log 4) -/
  resp : Resp
  /-- output `frame_done`: DONE of the last transaction if it came on the stream port, else 0 (44_deframer.md R192) -/
  frameDone : Bool
  /-- presentations not taken yet, oldest first; the model's own field (log 1) -/
  input : List Input
deriving DecidableEq, Repr

/-- The reasons a step can fault: none, since no transaction can fault (00_scope.md R9, 60_exceptions.md R220). -/
inductive Fault where
deriving DecidableEq, Repr

/-- The reasons a step can be refused. -/
inductive Refusal where
  /-- Raised by an arm of `exec` for an instruction that has no meaning yet. SAFE: the run stops. No arm raises it. -/
  | notModelled (mnemonic : String)
deriving DecidableEq, Repr

/-- What a frame-buffer unit holds after `FrameReset(t, RESET_CMD, DEFAULT_DEV)` at power-up: nothing listed, since an unlisted
offset reads as the reset contents, and the cursor at the first payload byte (70_reset_and_hazards.md R250). -/
def Fbu.atReset : Fbu :=
  { buf := [], cur := BitVec.ofNat 8 Config.hdrLen }

/-- The block right after hardware reset, every field at the value of 70_reset_and_hazards.md R250, and nothing presented
(log 1). -/
def State.reset : State :=
  { tx := Fbu.atReset
    rx := Fbu.atReset
    dfr := { state := .start, capDev := 0, capCmd := 0, capLen := 0 }
    diag := 0
    resp := { rdata := 0, code := .ok, done := false }
    frameDone := false
    input := [] }

end Sys2Proof.Machine
end

