-- ==== Sys2Proof/Machine/Operands.lean ====
section
/-! DEFINITION. How a result is formed from the raw little-endian value `V` of a field (30_encoding.md R77). Operands need no
evaluation: the decoder takes each from its slice of ARG (R76). -/

namespace Sys2Proof.Machine

/-- `zext_64(V)`: unsigned results and raw float bits, unconverted (30_encoding.md R77, decisions D8, D9). -/
def resultZext (v : Nat) : Word := BitVec.ofNat 64 v

/-- `sext_64(V)` of a `w`-byte value, with bit `8w-1` as the sign (30_encoding.md R77). -/
def resultSext (w : Nat) (v : Nat) : Word := (BitVec.ofNat (8 * w) v).signExtend 64

/-- `zext_64(byte)`: header bytes, characters, DIAG (30_encoding.md R77). -/
def resultByte (b : Byte) : Word := b.setWidth 64

/-- `zext_64(DONE)` (30_encoding.md R77). -/
def resultBit (b : Bool) : Word := if b then 1 else 0

end Sys2Proof.Machine
end

