-- ==== Sys2Proof/Machine/Flags.lean ====
section
/-! DEFINITION. The error kinds and their codes (60_exceptions.md R221), the sticky DIAG register (10_state.md R31) and the
STATUS view (10_state.md R32). -/

namespace Sys2Proof.Machine

/-- The error kinds of 60_exceptions.md R221. -/
inductive ErrorKind where
  | oversizeWrite
  | outOfRangeRead
  | illegalOp
  | desyncByte
  | lengthOverflow
deriving DecidableEq, Repr

/-- The RESP code of a kind; DesyncByte and LengthOverflow return OK (60_exceptions.md R221). -/
def ErrorKind.code : ErrorKind → RespCode
  | .oversizeWrite => .oversizeWrite
  | .outOfRangeRead => .outOfRangeRead
  | .illegalOp => .illegalOp
  | .desyncByte => .ok
  | .lengthOverflow => .ok

/-- The 2-bit value of a response code (60_exceptions.md R221). -/
def RespCode.bits : RespCode → BitVec 2
  | .ok => 0
  | .oversizeWrite => 1
  | .outOfRangeRead => 2
  | .illegalOp => 3

/-- The DIAG bit of a kind as a mask: bits 0 to 3, and none for DesyncByte (10_state.md R31, 60_exceptions.md R221). -/
def ErrorKind.diagMask : ErrorKind → BitVec 8
  | .oversizeWrite => 0x01
  | .outOfRangeRead => 0x02
  | .illegalOp => 0x04
  | .desyncByte => 0x00
  | .lengthOverflow => 0x08

/-- Set a kind's sticky bit (10_state.md R31). -/
def diagSet (k : ErrorKind) (diag : BitVec 8) : BitVec 8 := diag ||| k.diagMask

/-- What `RD_DIAG` reads: bits 7:4 read 0 (10_state.md R31). -/
def diagRead (diag : BitVec 8) : BitVec 8 := diag &&& 0x0F

/-- Write-1-to-clear of bits 3:0 (45_status_diag.md R212); writes to bits 7:4 are ignored (10_state.md R31). -/
def diagClear (m : BitVec 4) (diag : BitVec 8) : BitVec 8 := diag &&& ~~~(m.setWidth 8)

/-- The 3-bit code of `DFR.state` (10_state.md R28). -/
def DfrState.code : DfrState → BitVec 3
  | .start => 0
  | .device => 1
  | .command => 2
  | .length => 3
  | .data => 4

/-- The STATUS view `{cap_len, cap_cmd, cap_dev, 5'b0, state}` (10_state.md R32). -/
def statusWord (d : Dfr) : BitVec 32 := d.capLen ++ d.capCmd ++ d.capDev ++ 0#5 ++ d.state.code

end Sys2Proof.Machine
end

