-- ==== Sys2Proof/Machine/Ops.lean ====
section
/-! DEFINITION. The named operations every meaning is built from: the frame buffers, the response, and raising an error. -/

namespace Sys2Proof.Machine

/-- What an offset that the list does not hold reads as: the reset contents `FF 01 00 00` of the header
(70_reset_and_hazards.md R250), and 0 for the stale bytes, which may hold any value and which no operation reads (10_state.md
R25, 00_scope.md R10): log 5. An offset that does not exist reads as a free value: log 6. -/
def unlisted (a : Nat) : Byte :=
  if a = 0 then Config.startMarker
  else if a = 1 then Config.defaultDev
  else if a = 2 then Config.resetCmd
  else if a < Config.frameMax then 0
  else Config.absentByte a

/-- `buf_t[a]` (00_scope.md R12). -/
def Memory.read : Memory → Nat → Byte
  | [], a => unlisted a
  | (k, b) :: rest, a => if k = a then b else Memory.read rest a

/-- `buf_t[a] <- b` (00_scope.md R12), keeping the canonical form. -/
def Memory.write : Memory → Nat → Byte → Memory
  | [], a, b => if b = unlisted a then [] else [(a, b)]
  | (k, c) :: rest, a, b =>
    if a < k then (if b = unlisted a then (k, c) :: rest else (a, b) :: (k, c) :: rest)
    else if a = k then (if b = unlisted a then rest else (a, b) :: rest)
    else (k, c) :: Memory.write rest a b

/-- The canonical form from offset `lo` on: offsets rise strictly, exist, and list no byte that an unlisted offset reads as. -/
def Memory.wfFrom : Memory → Nat → Bool
  | [], _ => true
  | (k, b) :: rest, lo =>
    decide (lo ≤ k) && decide (k < Config.frameMax) && decide (b ≠ unlisted k) && Memory.wfFrom rest (k + 1)

/-- The canonical form of a frame buffer's bytes. -/
def Memory.wf (m : Memory) : Bool := Memory.wfFrom m 0

/-- `MemRead(t, a, n)`: the little-endian value of `n` bytes (00_scope.md R12, 20_memory.md R52). -/
def Memory.readLE (m : Memory) (a : Nat) : Nat → Nat
  | 0 => 0
  | n + 1 => (Memory.read m a).toNat + 256 * Memory.readLE m (a + 1) n

/-- `MemWrite(t, a, n, v)`: store the low `n` bytes of `v`, least significant first (00_scope.md R12, 20_memory.md R52). -/
def Memory.writeLE (m : Memory) (a : Nat) : Nat → Nat → Memory
  | 0, _ => m
  | n + 1, v => Memory.writeLE (Memory.write m a (BitVec.ofNat 8 v)) (a + 1) n (v / 256)

/-- The length byte `buf_t[3]` (10_state.md R22). -/
def Fbu.lenByte (f : Fbu) : Byte := Memory.read f.buf 3

/-- `BLEN_t = 4 + buf_t[3]`, on unbounded naturals (10_state.md R23, 00_scope.md R11). -/
def Fbu.blen (f : Fbu) : Nat := Config.hdrLen + f.lenByte.toNat

/-- `Raw(t) = buf_t[0], ..., buf_t[BLEN_t - 1]`, the wire frame (43_accessors_encodings.md R163). -/
def Fbu.raw (f : Fbu) : List Byte := (List.range f.blen).map (Memory.read f.buf)

/-- `FrameReset(t, c, d)` (40_frame_control.md R100). -/
def Fbu.frameReset (c d : Byte) (f : Fbu) : Fbu :=
  { buf := Memory.write (Memory.write (Memory.write (Memory.write f.buf 0 Config.startMarker) 1 d) 2 c) 3 0
    cur := BitVec.ofNat 8 Config.hdrLen }

/-- The effect of `Append(t, w, v)` on the unit, or nothing where it raises OversizeWrite (41_writes.md R110). -/
def Fbu.append? (f : Fbu) (w v : Nat) : Option Fbu :=
  if Config.frameMax < f.blen + w then none
  else some { f with buf := Memory.write (Memory.writeLE f.buf f.blen w v) 3 (f.lenByte + BitVec.ofNat 8 w) }

/-- The unit that a target selects (10_state.md R26). -/
def State.fbu (s : State) : Target → Fbu
  | .tx => s.tx
  | .rx => s.rx

/-- Replace the unit that a target selects. -/
def State.setFbu (s : State) (t : Target) (f : Fbu) : State :=
  match t with
  | .tx => { s with tx := f }
  | .rx => { s with rx := f }

/-- `respond(code, value, done)`: drive the outputs of the transaction (00_scope.md R12). `frame_done` is the stream port's; a
transaction that the stream port brought sets it afterwards (Transact.lean). -/
def respond (code : RespCode) (value : Word) (done : Bool) (s : State) : State :=
  { s with resp := { rdata := value, code := code, done := done }, frameDone := false }

/-- `raise K`: respond with K's code and RDATA 0, set K's DIAG bit, and leave every other piece of state unchanged (00_scope.md
R12, 60_exceptions.md R220 to R225). This is all the block has for an exception: no trap, no saved state, no return (R230). -/
def raise (k : ErrorKind) (s : State) : State :=
  respond k.code 0 false { s with diag := diagSet k s.diag }

/-- The legality check that a meaning of a command with `t` column "0" opens with (30_encoding.md R75 condition 3, 40_frame_control.md
R101): IllegalOp on the `RX` target, else the command's effect. The decoder refuses such words already (log 13). -/
def onTxOnly (t : Target) (effect : State → Host.Outcome State Fault Refusal) (s : State) :
    Host.Outcome State Fault Refusal :=
  match t with
  | .tx => effect s
  | .rx => .next (raise .illegalOp s)

/-- The command `Append(t, w, v)` (41_writes.md R110). -/
def append (t : Target) (w v : Nat) (s : State) : Host.Outcome State Fault Refusal :=
  match (s.fbu t).append? w v with
  | none => .next (raise .oversizeWrite s)
  | some f => .next (respond .ok 0 false (s.setFbu t f))

/-- `SeqRead(t, w)`, its value formed by `form` (42_reads.md R130, 30_encoding.md R77). -/
def seqRead (t : Target) (w : Nat) (form : Nat → Word) (s : State) : Host.Outcome State Fault Refusal :=
  let f := s.fbu t
  if f.blen < f.cur.toNat + w then .next (raise .outOfRangeRead s)
  else .next (respond .ok (form (Memory.readLE f.buf f.cur.toNat w)) false
    (s.setFbu t { f with cur := f.cur + BitVec.ofNat 8 w }))

/-- `OffRead(t, off, w)`, its value formed by `form` (42_reads.md R140, 30_encoding.md R77). -/
def offRead (t : Target) (off : Nat) (w : Nat) (form : Nat → Word) (s : State) : Host.Outcome State Fault Refusal :=
  let f := s.fbu t
  if f.blen < off + w then .next (raise .outOfRangeRead s)
  else .next (respond .ok (form (Memory.readLE f.buf off w)) false s)

/-- Read one header byte; offsets 0..3 always exist (43_accessors_encodings.md R160 to R162). -/
def headerRead (t : Target) (off : Nat) (s : State) : Host.Outcome State Fault Refusal :=
  .next (respond .ok (resultByte (Memory.read (s.fbu t).buf off)) false s)

end Sys2Proof.Machine
end

