-- ==== Sys2Proof/Machine/Accessors.lean ====
section
/-! DEFINITION. The header accessors and the base64 readout (43_accessors_encodings.md). None of them changes a frame-buffer
unit. -/

namespace Sys2Proof.Machine

/-- GET_DEV (43_accessors_encodings.md R160). -/
def execGetDev (t : Target) (s : State) : Host.Outcome State Fault Refusal :=
  headerRead t 1 s

/-- GET_CMD (43_accessors_encodings.md R161). -/
def execGetCmd (t : Target) (s : State) : Host.Outcome State Fault Refusal :=
  headerRead t 2 s

/-- GET_LEN (43_accessors_encodings.md R162). -/
def execGetLen (t : Target) (s : State) : Host.Outcome State Fault Refusal :=
  headerRead t 3 s

/-- `B64CHAR(k)`, the ASCII code of the character with index `k` (43_accessors_encodings.md R165). -/
def b64Char (k : BitVec 6) : Byte :=
  if k.toNat ≤ 25 then BitVec.ofNat 8 (0x41 + k.toNat)
  else if k.toNat ≤ 51 then BitVec.ofNat 8 (0x61 + (k.toNat - 26))
  else if k.toNat ≤ 61 then BitVec.ofNat 8 (0x30 + (k.toNat - 52))
  else if k.toNat = 62 then 0x2B
  else 0x2F

/-- `PAD`, the character `=` (43_accessors_encodings.md R165). -/
def b64Pad : Byte := 0x3D

/-- `|B64(t)| = 4 * ceil(n / 3)` for a frame of `n` bytes (43_accessors_encodings.md R165, R167). -/
def b64Length (n : Nat) : Nat := 4 * ((n + 2) / 3)

/-- `out[k]` of 43_accessors_encodings.md R165, for a unit whose frame has `BLEN` bytes. -/
def Fbu.b64At (f : Fbu) (k : Nat) : Byte :=
  let j := k / 4
  let r := f.blen - 3 * j
  let b0 := Memory.read f.buf (3 * j)
  let b1 := if 2 ≤ r then Memory.read f.buf (3 * j + 1) else 0
  let b2 := if 3 ≤ r then Memory.read f.buf (3 * j + 2) else 0
  let w : BitVec 24 := b0 ++ b1 ++ b2
  match k % 4 with
  | 0 => b64Char (w.extractLsb' 18 6)
  | 1 => b64Char (w.extractLsb' 12 6)
  | 2 => if 2 ≤ r then b64Char (w.extractLsb' 6 6) else b64Pad
  | _ => if 3 ≤ r then b64Char (w.extractLsb' 0 6) else b64Pad

/-- `B64(t)`, the base64 form of the frame (43_accessors_encodings.md R165). -/
def Fbu.b64 (f : Fbu) : List Byte := (List.range (b64Length f.blen)).map f.b64At

/-- RD_B64 k (43_accessors_encodings.md R166). -/
def execRdB64 (t : Target) (k : BitVec 16) (s : State) : Host.Outcome State Fault Refusal :=
  let f := s.fbu t
  if b64Length f.blen ≤ k.toNat then .next (raise .outOfRangeRead s)
  else .next (respond .ok (resultByte (f.b64At k.toNat)) false s)

end Sys2Proof.Machine
end

