-- ==== Sys2Proof/Machine/Deframer.lean ====
section
/-! DEFINITION. The deframer: FEED and one operation per row of its state table (44_deframer.md R180 to R185). -/

namespace Sys2Proof.Machine

/-- `respond(OK, zext_64(done), done)`: how every FEED that ran its arm ends (44_deframer.md R180). -/
def feedRespond (done : Bool) (s : State) : Host.Outcome State Fault Refusal :=
  .next (respond .ok (resultBit done) done s)

/-- State START (44_deframer.md R181): the marker starts a frame, any other byte is discarded (DesyncByte, 60_exceptions.md R224). -/
def feedStart (b : Byte) (s : State) : Host.Outcome State Fault Refusal :=
  if b = Config.startMarker then feedRespond false { s with dfr := { s.dfr with state := .device } }
  else feedRespond false s

/-- State DEVICE (44_deframer.md R182). -/
def feedDevice (b : Byte) (s : State) : Host.Outcome State Fault Refusal :=
  feedRespond false { s with dfr := { s.dfr with capDev := b, state := .command } }

/-- State COMMAND (44_deframer.md R183). -/
def feedCommand (b : Byte) (s : State) : Host.Outcome State Fault Refusal :=
  feedRespond false { s with dfr := { s.dfr with capCmd := b, state := .length } }

/-- State LENGTH (44_deframer.md R184): capture the length and reset `RX` for every `b`; then (a) an empty frame is complete, (b)
a normal frame goes to DATA, (c) a length above PAYLOAD_MAX sets `DIAG.LEN_OVERFLOW` and returns to START (decisions D13, D14,
D28; 60_exceptions.md R226). -/
def feedLength (b : Byte) (s : State) : Host.Outcome State Fault Refusal :=
  let rx := s.rx.frameReset s.dfr.capCmd s.dfr.capDev
  if b = 0 then
    feedRespond true { s with rx := rx, dfr := { s.dfr with capLen := b, state := .start } }
  else if b.toNat ≤ Config.payloadMax then
    feedRespond false { s with rx := rx, dfr := { s.dfr with capLen := b, state := .data } }
  else
    feedRespond false { s with
      rx := rx
      dfr := { s.dfr with capLen := b, state := .start }
      diag := diagSet .lengthOverflow s.diag }

/-- State DATA (44_deframer.md R185): append the byte to `RX`, complete when the payload length equals the declared one. Where
the append would be rejected, `raise` ends the transaction as 00_scope.md R12 says; R190 shows that no reachable state does
(log 7). -/
def feedData (b : Byte) (s : State) : Host.Outcome State Fault Refusal :=
  match s.rx.append? 1 b.toNat with
  | none => .next (raise .oversizeWrite s)
  | some f =>
    if f.lenByte = s.dfr.capLen then feedRespond true { s with rx := f, dfr := { s.dfr with state := .start } }
    else feedRespond false { s with rx := f }

/-- `DeframerStep(b)`: exactly one arm, chosen by `DFR.state` (44_deframer.md R180). -/
def deframerStep (b : Byte) (s : State) : Host.Outcome State Fault Refusal :=
  match s.dfr.state with
  | .start => feedStart b s
  | .device => feedDevice b s
  | .command => feedCommand b s
  | .length => feedLength b s
  | .data => feedData b s

/-- FEED b (44_deframer.md R180). -/
def execFeed (t : Target) (b : Byte) (s : State) : Host.Outcome State Fault Refusal :=
  onTxOnly t (deframerStep b) s

end Sys2Proof.Machine
end

