-- ==== Sys2Proof/Machine/FrameControl.lean ====
section
/-! DEFINITION. The frame control family: RESET (40_frame_control.md). -/

namespace Sys2Proof.Machine

/-- RESET c, d (40_frame_control.md R101). -/
def execReset (t : Target) (c d : Byte) (s : State) : Host.Outcome State Fault Refusal :=
  onTxOnly t (fun s => .next (respond .ok 0 false { s with tx := s.tx.frameReset c d })) s

end Sys2Proof.Machine
end

