-- ==== Sys2Proof/Machine/Reads.lean ====
section
/-! DEFINITION. The sequential and the offset-indexed typed reads (42_reads.md). -/

namespace Sys2Proof.Machine

/-- RD_U8 (42_reads.md R131). -/
def execRdU8 (t : Target) (s : State) : Host.Outcome State Fault Refusal :=
  seqRead t 1 resultZext s

/-- RD_U16 (42_reads.md R132). -/
def execRdU16 (t : Target) (s : State) : Host.Outcome State Fault Refusal :=
  seqRead t 2 resultZext s

/-- RD_U32 (42_reads.md R133). -/
def execRdU32 (t : Target) (s : State) : Host.Outcome State Fault Refusal :=
  seqRead t 4 resultZext s

/-- RD_I8 (42_reads.md R134). -/
def execRdI8 (t : Target) (s : State) : Host.Outcome State Fault Refusal :=
  seqRead t 1 (resultSext 1) s

/-- RD_I16 (42_reads.md R135). -/
def execRdI16 (t : Target) (s : State) : Host.Outcome State Fault Refusal :=
  seqRead t 2 (resultSext 2) s

/-- RD_I32 (42_reads.md R136). -/
def execRdI32 (t : Target) (s : State) : Host.Outcome State Fault Refusal :=
  seqRead t 4 (resultSext 4) s

/-- RD_F32 (42_reads.md R137). -/
def execRdF32 (t : Target) (s : State) : Host.Outcome State Fault Refusal :=
  seqRead t 4 resultZext s

/-- RD_F64 (42_reads.md R138). -/
def execRdF64 (t : Target) (s : State) : Host.Outcome State Fault Refusal :=
  seqRead t 8 resultZext s

/-- RD_U8_AT off (42_reads.md R141). -/
def execRdU8At (t : Target) (off : BitVec 16) (s : State) : Host.Outcome State Fault Refusal :=
  offRead t off.toNat 1 resultZext s

/-- RD_U32_AT off (42_reads.md R142). -/
def execRdU32At (t : Target) (off : BitVec 16) (s : State) : Host.Outcome State Fault Refusal :=
  offRead t off.toNat 4 resultZext s

/-- RD_F64_AT off (42_reads.md R143). -/
def execRdF64At (t : Target) (off : BitVec 16) (s : State) : Host.Outcome State Fault Refusal :=
  offRead t off.toNat 8 resultZext s

end Sys2Proof.Machine
end

