-- ==== Sys2Proof/Machine/StatusDiag.lean ====
section
/-! DEFINITION. The status and diagnostic commands (45_status_diag.md). -/

namespace Sys2Proof.Machine

/-- RD_STATUS (45_status_diag.md R210). -/
def execRdStatus (t : Target) (s : State) : Host.Outcome State Fault Refusal :=
  onTxOnly t (fun s => .next (respond .ok ((statusWord s.dfr).setWidth 64) false s)) s

/-- RD_DIAG (45_status_diag.md R211). Reading does not clear DIAG. -/
def execRdDiag (t : Target) (s : State) : Host.Outcome State Fault Refusal :=
  onTxOnly t (fun s => .next (respond .ok (resultByte (diagRead s.diag)) false s)) s

/-- CLR_DIAG m (45_status_diag.md R212). -/
def execClrDiag (t : Target) (m : BitVec 4) (s : State) : Host.Outcome State Fault Refusal :=
  onTxOnly t (fun s => .next (respond .ok 0 false { s with diag := diagClear m s.diag })) s

end Sys2Proof.Machine
end

