-- ==== Sys2Proof/Machine/Writes.lean ====
section
/-! DEFINITION. The typed writes: each appends to `TX` (41_writes.md). Signed writes are bit-identical to unsigned ones, and
floats are raw bits. -/

namespace Sys2Proof.Machine

/-- WR_U8 v (41_writes.md R111). -/
def execWrU8 (t : Target) (v : BitVec 8) (s : State) : Host.Outcome State Fault Refusal :=
  onTxOnly t (append .tx 1 v.toNat) s

/-- WR_U16 v (41_writes.md R112). -/
def execWrU16 (t : Target) (v : BitVec 16) (s : State) : Host.Outcome State Fault Refusal :=
  onTxOnly t (append .tx 2 v.toNat) s

/-- WR_U32 v (41_writes.md R113). -/
def execWrU32 (t : Target) (v : BitVec 32) (s : State) : Host.Outcome State Fault Refusal :=
  onTxOnly t (append .tx 4 v.toNat) s

/-- WR_I8 v (41_writes.md R114). -/
def execWrI8 (t : Target) (v : BitVec 8) (s : State) : Host.Outcome State Fault Refusal :=
  onTxOnly t (append .tx 1 v.toNat) s

/-- WR_I16 v (41_writes.md R115). -/
def execWrI16 (t : Target) (v : BitVec 16) (s : State) : Host.Outcome State Fault Refusal :=
  onTxOnly t (append .tx 2 v.toNat) s

/-- WR_I32 v (41_writes.md R116). -/
def execWrI32 (t : Target) (v : BitVec 32) (s : State) : Host.Outcome State Fault Refusal :=
  onTxOnly t (append .tx 4 v.toNat) s

/-- WR_F32 v (41_writes.md R117). -/
def execWrF32 (t : Target) (v : BitVec 32) (s : State) : Host.Outcome State Fault Refusal :=
  onTxOnly t (append .tx 4 v.toNat) s

/-- WR_F64 v (41_writes.md R118). -/
def execWrF64 (t : Target) (v : BitVec 64) (s : State) : Host.Outcome State Fault Refusal :=
  onTxOnly t (append .tx 8 v.toNat) s

end Sys2Proof.Machine
end

