-- ==== Sys2Proof/Machine/Dispatch.lean ====
section
/-! DEFINITION. What each command does: one arm per constructor of Instr, each one call of its meaning. -/

namespace Sys2Proof.Machine

/-- The effect of one command (30_encoding.md R73). -/
def exec (i : Instr) (s : State) : Host.Outcome State Fault Refusal :=
  match i with
  | .reset t c d => Sys2Proof.Machine.execReset t c d s
  | .wrU8 t v => Sys2Proof.Machine.execWrU8 t v s
  | .wrU16 t v => Sys2Proof.Machine.execWrU16 t v s
  | .wrU32 t v => Sys2Proof.Machine.execWrU32 t v s
  | .wrI8 t v => Sys2Proof.Machine.execWrI8 t v s
  | .wrI16 t v => Sys2Proof.Machine.execWrI16 t v s
  | .wrI32 t v => Sys2Proof.Machine.execWrI32 t v s
  | .wrF32 t v => Sys2Proof.Machine.execWrF32 t v s
  | .wrF64 t v => Sys2Proof.Machine.execWrF64 t v s
  | .rdU8 t => Sys2Proof.Machine.execRdU8 t s
  | .rdU16 t => Sys2Proof.Machine.execRdU16 t s
  | .rdU32 t => Sys2Proof.Machine.execRdU32 t s
  | .rdI8 t => Sys2Proof.Machine.execRdI8 t s
  | .rdI16 t => Sys2Proof.Machine.execRdI16 t s
  | .rdI32 t => Sys2Proof.Machine.execRdI32 t s
  | .rdF32 t => Sys2Proof.Machine.execRdF32 t s
  | .rdF64 t => Sys2Proof.Machine.execRdF64 t s
  | .rdU8At t off => Sys2Proof.Machine.execRdU8At t off s
  | .rdU32At t off => Sys2Proof.Machine.execRdU32At t off s
  | .rdF64At t off => Sys2Proof.Machine.execRdF64At t off s
  | .getDev t => Sys2Proof.Machine.execGetDev t s
  | .getCmd t => Sys2Proof.Machine.execGetCmd t s
  | .getLen t => Sys2Proof.Machine.execGetLen t s
  | .rdB64 t k => Sys2Proof.Machine.execRdB64 t k s
  | .feed t b => Sys2Proof.Machine.execFeed t b s
  | .rdStatus t => Sys2Proof.Machine.execRdStatus t s
  | .rdDiag t => Sys2Proof.Machine.execRdDiag t s
  | .clrDiag t m => Sys2Proof.Machine.execClrDiag t m s

end Sys2Proof.Machine
end

