-- ==== Sys2Proof/Machine/Transact.lean ====
section
/-! DEFINITION. Transactions: a command word decoded and run, a byte of the stream port, hardware reset, and taking the oldest
presentation of the ports. -/

namespace Sys2Proof.Machine

/-- One transaction (CMD, ARG): a legal command has its effect, an illegal one raises IllegalOp (30_encoding.md R75,
60_exceptions.md R225). The legality check comes first (60_exceptions.md R227). -/
def transact (cmd : Cmd) (arg : Word) (s : State) : Host.Outcome State Fault Refusal :=
  match decode cmd arg with
  | .ok i => exec i s
  | .error _ => .next (raise .illegalOp s)

/-- A byte taken on the stream port: exactly the transaction `(CMD = 0x0060, ARG = zext_64(b))` (30_encoding.md R70), whose DONE
drives `frame_done` (44_deframer.md R192). -/
def streamByte (b : Byte) (s : State) : Host.Outcome State Fault Refusal :=
  match transact 0x0060 (b.setWidth 64) s with
  | .next s' => .next { s' with frameDone := s'.resp.done }
  | .fault r => .fault r
  | .refused r => .refused r

/-- `rst` asserted: no state survives it (70_reset_and_hazards.md R250, R251). What the ports present afterwards is the outside
world's and stays (log 1). -/
def hardwareReset (s : State) : State := { State.reset with input := s.input }

/-- Take the oldest presentation and run it. A same-cycle pair is two consecutive steps, the stream byte first (20_memory.md R60).
With nothing presented, nothing happens (00_scope.md R8, 60_exceptions.md R235; log 3). -/
def takeInput (s : State) : Host.Outcome State Fault Refusal :=
  match s.input with
  | [] => .next s
  | .host cmd arg :: rest => transact cmd arg { s with input := rest }
  | .stream b :: rest => streamByte b { s with input := rest }
  | .both b cmd arg :: rest => streamByte b { s with input := .host cmd arg :: rest }
  | .rst :: rest => .next (hardwareReset { s with input := rest })

/-- Present a host command ahead of everything else. -/
def presentFirst (cmd : Cmd) (arg : Word) (s : State) : State :=
  { s with input := .host cmd arg :: s.input }

end Sys2Proof.Machine
end

