-- ==== Sys2Proof/Machine/Step.lean ====
section
/-! DEFINITION. One step of the machine: one transaction (00_scope.md R8, 20_memory.md R59). -/

namespace Sys2Proof.Machine

/-- One step: the oldest presentation is taken and has its whole effect. -/
def step (s : State) : Host.Outcome State Fault Refusal := takeInput s

/-- `s` with the instruction numbered `w` (CMD in bits 15..0, ARG in the bits from 16 on, bits at and above `nbits` zero) presented
on the host port as the next transaction. Log 2. -/
def State.withFetchWord (s : State) (nbits w : Nat) : State :=
  presentFirst (BitVec.ofNat 16 (w % 2 ^ nbits)) (BitVec.ofNat 64 (w % 2 ^ nbits / 65536)) s

end Sys2Proof.Machine
end

