-- ==== Sys2Proof/Machine/Pseudo.lean ====
section
/-! DEFINITION. The pseudo-instructions and their expansions into commands (30_encoding.md R81). They are no instructions of the
block: a host issues the commands one by one. -/

namespace Sys2Proof.Machine

/-- The pseudo-instructions of 30_encoding.md R81 (the other names of that table are the commands themselves). -/
inductive Pseudo where
  /-- `RESET c`, the device id omitted -/
  | resetDefault (c : Byte)
  /-- `WR_DOUBLE v` (41_writes.md R119) -/
  | wrDouble (v : BitVec 64)
  /-- `RD_DOUBLE[.t]` (42_reads.md R139) -/
  | rdDouble (t : Target)
  /-- `RAW[.t]` (43_accessors_encodings.md R163) -/
  | raw (t : Target)
  /-- `RAWBUFFER[.t]` -/
  | rawBuffer (t : Target)
  /-- `RAWARRAY[.t]` -/
  | rawArray (t : Target)
  /-- `RAWLATIN1[.t]` (43_accessors_encodings.md R164) -/
  | rawLatin1 (t : Target)
  /-- `BASE64[.t]` (43_accessors_encodings.md R166) -/
  | base64 (t : Target)
deriving DecidableEq, Repr

/-- `GET_LEN[.t]`, then `RD_U8_AT[.t] k` for `k = 0 .. blen-1` (43_accessors_encodings.md R163). -/
def rawReadout (t : Target) (blen : Nat) : List Instr :=
  .getLen t :: (List.range blen).map (fun k => .rdU8At t (BitVec.ofNat 16 k))

/-- The commands a pseudo-instruction stands for, on a unit whose frame has `blen` bytes, which the host learns from the leading
`GET_LEN` (30_encoding.md R81). -/
def Pseudo.expand (blen : Nat) : Pseudo → List Instr
  | .resetDefault c => [.reset .tx c Config.defaultDev]
  | .wrDouble v => [.wrF64 .tx v]
  | .rdDouble t => [.rdF64 t]
  | .raw t => rawReadout t blen
  | .rawBuffer t => rawReadout t blen
  | .rawArray t => rawReadout t blen
  | .rawLatin1 t => rawReadout t blen
  | .base64 t =>
    .getLen t :: (List.range (4 * ((blen + 2) / 3))).map (fun k => .rdB64 t (BitVec.ofNat 16 k))

/-- A command as the host presents it (30_encoding.md R80). -/
def presentation (i : Instr) : Input := .host (encode i).1 (encode i).2

/-- The commands of a list presented on the host port, in order, and nothing else. -/
def State.presenting (s : State) (is : List Instr) : State := { s with input := is.map presentation }

/-- The bytes of a list presented on the stream port, in order, and nothing else. -/
def State.streaming (s : State) (bs : List Byte) : State := { s with input := bs.map .stream }

end Sys2Proof.Machine
end

