-- ==== Sys2Proof/Safety.lean ====
section
/-! DEFINITION. What claims about a run are stated in: the invariants of reachable states, and what an observer sees. -/

namespace Sys2Proof.Machine

/-- The invariants of a frame-buffer unit (10_state.md R24), with the canonical form of its bytes. `4 <= BLEN <= 255` follows from
the bound on the length byte. -/
abbrev Fbu.Inv (f : Fbu) : Prop :=
  Memory.wf f.buf = true ∧
    Memory.read f.buf 0 = Config.startMarker ∧
    f.lenByte.toNat ≤ Config.payloadMax ∧
    Config.hdrLen ≤ f.cur.toNat ∧
    f.cur.toNat ≤ f.blen

/-- While a payload is being received, `RX` holds the captured header and fewer bytes than declared (44_deframer.md R186, R190). -/
abbrev State.AssemblyInv (s : State) : Prop :=
  s.dfr.state = .data →
    s.rx.lenByte.toNat < s.dfr.capLen.toNat ∧
      s.dfr.capLen.toNat ≤ Config.payloadMax ∧
      Memory.read s.rx.buf 1 = s.dfr.capDev ∧
      Memory.read s.rx.buf 2 = s.dfr.capCmd

/-- The invariant of reachable states: both units (10_state.md R24), the frame being assembled (44_deframer.md R190), and DIAG's
reserved bits (10_state.md R31). -/
abbrev State.Inv (s : State) : Prop :=
  s.tx.Inv ∧ s.rx.Inv ∧ s.AssemblyInv ∧ s.diag &&& 0xF0 = 0

/-- A safe step: it answers a next state, neither a fault nor a refusal (00_scope.md R9, 60_exceptions.md R220). -/
abbrev Proceeds (o : Host.Outcome State Fault Refusal) : Prop := ∃ s', o = .next s'

/-- The responses of the first `n` steps: what the model observes of a run (00_scope.md R8). A run that stops ends the list. -/
def observe : Nat → State → List (Resp × Bool)
  | 0, _ => []
  | n + 1, s =>
    match step s with
    | .next s' => (s'.resp, s'.frameDone) :: observe n s'
    | .fault _ => []
    | .refused _ => []

/-- Two units that differ at most in stale bytes (10_state.md R25): the same frame and the same cursor. -/
abbrev Fbu.SameFrame (f g : Fbu) : Prop := f.raw = g.raw ∧ f.cur = g.cur

/-- Two states that differ at most in stale bytes (10_state.md R25). -/
abbrev State.SameButStale (s t : State) : Prop :=
  s.tx.SameFrame t.tx ∧ s.rx.SameFrame t.rx ∧ s.dfr = t.dfr ∧ s.diag = t.diag ∧ s.resp = t.resp ∧
    s.frameDone = t.frameDone ∧ s.input = t.input

/-- The width and the value of a typed write to `TX`. -/
def writeField : Instr → Option (Nat × Nat)
  | .wrU8 .tx v | .wrI8 .tx v => some (1, v.toNat)
  | .wrU16 .tx v | .wrI16 .tx v => some (2, v.toNat)
  | .wrU32 .tx v | .wrI32 .tx v | .wrF32 .tx v => some (4, v.toNat)
  | .wrF64 .tx v => some (8, v.toNat)
  | _ => none

/-- Which commands are sequential reads of unit `t` (42_reads.md R131 to R138). -/
def SeqReads (t : Target) (i : Instr) : Prop :=
  i = .rdU8 t ∨ i = .rdU16 t ∨ i = .rdU32 t ∨ i = .rdI8 t ∨ i = .rdI16 t ∨ i = .rdI32 t ∨ i = .rdF32 t ∨ i = .rdF64 t

end Sys2Proof.Machine
end

