-- ==== Sys2Proof/Certificates/Slice0/Obligations.lean ====
section
/-! DEFINITION. The statements for the provers. The words they share stand first, under Sys2Proof.Claims: they say what the spec
says from the frames, the bytes and the fields, not from the meanings' own operations. -/

namespace Sys2Proof.Claims

open Sys2Proof.Machine

/-- The state that an error of response code `code` and DIAG mask `mask` leaves: RDATA 0, the sticky bit set, everything else as
before (60_exceptions.md R220, R222, R223, R225); DONE and with it `frame_done` are 0 (10_state.md R30, R33). -/
def rejected (code : RespCode) (mask : BitVec 8) (s : State) : State :=
  { s with resp := { rdata := 0, code := code, done := false }, frameDone := false, diag := s.diag ||| mask }

/-- The state that an OK response with result `v` and DONE 0 leaves when nothing but the outputs changes (00_scope.md R12; 10_state.md
R30, R33 for `frame_done`). -/
def answered (v : Word) (s : State) : State :=
  { s with resp := { rdata := v, code := .ok, done := false }, frameDone := false }

/-- The response of a FEED that ran: OK, RDATA the zero-extended DONE (44_deframer.md R180). -/
def feedResp (done : Bool) : Resp := { rdata := if done then 1 else 0, code := .ok, done := done }

/-- The sum of 20_memory.md R52: the little-endian value of the `w` bytes at offset `a`. -/
def fieldValue (f : Fbu) (a w : Nat) : Nat :=
  ((List.range w).map (fun i => (Memory.read f.buf (a + i)).toNat <<< (8 * i))).sum

/-- The signed number that the low `8w` bits of `v` stand for in two's complement, as a 64-bit word (30_encoding.md R77). -/
def signed (w v : Nat) : Word :=
  BitVec.ofInt 64 (if v < 2 ^ (8 * w - 1) then (v : Int) else (v : Int) - 2 ^ (8 * w))

/-- The `w` bytes that store `v`, least significant first (20_memory.md R52). -/
def leBytes (w v : Nat) : List Byte := (List.range w).map (fun i => BitVec.ofNat 8 (v >>> (8 * i)))

/-- `s'` is `s` after a write of the `w`-byte value `v` appended to unit `t`: the bytes at `BLEN .. BLEN+w-1` are `v`'s, the length
byte grows by `w`, every other byte, the cursor, the other unit, the deframer, DIAG and the queue are as before, and the response
is OK with RDATA 0 (41_writes.md R110). -/
def Appended (t : Target) (w v : Nat) (s s' : State) : Prop :=
  (s'.fbu t).lenByte.toNat = (s.fbu t).lenByte.toNat + w ∧
    (∀ i, i < w → Memory.read (s'.fbu t).buf ((s.fbu t).blen + i) = BitVec.ofNat 8 (v >>> (8 * i))) ∧
    (∀ a, a ≠ 3 → (a < (s.fbu t).blen ∨ (s.fbu t).blen + w ≤ a) →
      Memory.read (s'.fbu t).buf a = Memory.read (s.fbu t).buf a) ∧
    (s'.fbu t).cur = (s.fbu t).cur ∧
    (∀ u, u ≠ t → s'.fbu u = s.fbu u) ∧
    s'.dfr = s.dfr ∧ s'.diag = s.diag ∧ s'.input = s.input ∧
    s'.resp = { rdata := 0, code := .ok, done := false } ∧ s'.frameDone = false

/-- The legality check of a command (30_encoding.md R75): a command word with opcode `op` that is none of `words` is illegal, whatever
its ARG, and reports only IllegalOp (60_exceptions.md R225). -/
def OnlyWords (op : BitVec 8) (words : List Cmd) : Prop :=
  ∀ (s : State) (cmd : Cmd) (arg : Word), cmd.extractLsb' 0 8 = op → cmd ∉ words →
    transact cmd arg s = .next (rejected .illegalOp 0x04 s)

/-- An illegal command word: the three conditions of 30_encoding.md R75. -/
def Illegal (cmd : Cmd) : Prop :=
  cmd.extractLsb' 9 7 ≠ 0 ∨
    (cmd.extractLsb' 0 8 ∉ anyTargetOps ∧ cmd.extractLsb' 0 8 ∉ txOnlyOps) ∨
    (cmd.extractLsb' 8 1 = 1 ∧ cmd.extractLsb' 0 8 ∈ txOnlyOps)

/-- The rule of one typed write of `w` bytes with command word `cmd` (41_writes.md, the template of R111 to R118): the encoding and
its operand `ARG[8w-1:0]`, the append where `BLEN + w <= 255`, OversizeWrite otherwise, IllegalOp on the `RX` target and on every
other word with its opcode. -/
def WriteRule (w : Nat) (mk : Target → BitVec (8 * w) → Instr) (cmd : Cmd) : Prop :=
  (∀ arg : Word, decode cmd arg = .ok (mk .tx (arg.extractLsb' 0 (8 * w)))) ∧
    (∀ (s : State) (v : BitVec (8 * w)), s.tx.Inv → s.tx.blen + w ≤ 255 →
      ∃ s', exec (mk .tx v) s = .next s' ∧ Appended .tx w v.toNat s s') ∧
    (∀ (s : State) (v : BitVec (8 * w)), 255 < s.tx.blen + w →
      exec (mk .tx v) s = .next (rejected .oversizeWrite 0x01 s)) ∧
    (∀ (s : State) (v : BitVec (8 * w)), exec (mk .rx v) s = .next (rejected .illegalOp 0x04 s)) ∧
    OnlyWords (cmd.extractLsb' 0 8) [cmd]

/-- The rule of one sequential read of `w` bytes with command words `cmdTx` and `cmdRx` and the result `form V` (42_reads.md, the
template of R131 to R138): the encodings, ARG ignored; the value and the cursor's advance where `cur + w <= BLEN`, with every
byte, the other unit, the deframer and DIAG as before; OutOfRangeRead otherwise; every other word with the opcode illegal. -/
def SeqReadRule (w : Nat) (mk : Target → Instr) (form : Nat → Word) (cmdTx cmdRx : Cmd) : Prop :=
  (∀ arg : Word, decode cmdTx arg = .ok (mk .tx) ∧ decode cmdRx arg = .ok (mk .rx)) ∧
    (∀ s : State, s.tx.Inv → s.tx.cur.toNat + w ≤ s.tx.blen →
      exec (mk .tx) s = .next (answered (form (fieldValue s.tx s.tx.cur.toNat w))
        { s with tx := { s.tx with cur := BitVec.ofNat 8 (s.tx.cur.toNat + w) } })) ∧
    (∀ s : State, s.rx.Inv → s.rx.cur.toNat + w ≤ s.rx.blen →
      exec (mk .rx) s = .next (answered (form (fieldValue s.rx s.rx.cur.toNat w))
        { s with rx := { s.rx with cur := BitVec.ofNat 8 (s.rx.cur.toNat + w) } })) ∧
    (∀ (s : State) (t : Target), (s.fbu t).blen < (s.fbu t).cur.toNat + w →
      exec (mk t) s = .next (rejected .outOfRangeRead 0x02 s)) ∧
    OnlyWords (cmdTx.extractLsb' 0 8) [cmdTx, cmdRx]

/-- The rule of one offset read of `w` bytes (42_reads.md, the template of R141 to R143): the encodings and `off = ARG[15:0]`; the
value, nothing but the outputs changed, where `off + w <= BLEN`; OutOfRangeRead otherwise, and so at every offset from 255 on in a
unit that meets its invariants; every other word with the opcode illegal. -/
def OffReadRule (w : Nat) (mk : Target → BitVec 16 → Instr) (cmdTx cmdRx : Cmd) : Prop :=
  (∀ arg : Word, decode cmdTx arg = .ok (mk .tx (arg.extractLsb' 0 16)) ∧
    decode cmdRx arg = .ok (mk .rx (arg.extractLsb' 0 16))) ∧
    (∀ (s : State) (t : Target) (off : BitVec 16), (s.fbu t).Inv → off.toNat + w ≤ (s.fbu t).blen →
      exec (mk t off) s = .next (answered (BitVec.ofNat 64 (fieldValue (s.fbu t) off.toNat w)) s)) ∧
    (∀ (s : State) (t : Target) (off : BitVec 16), (s.fbu t).blen < off.toNat + w →
      exec (mk t off) s = .next (rejected .outOfRangeRead 0x02 s)) ∧
    (∀ (s : State) (t : Target) (off : BitVec 16), (s.fbu t).Inv → 255 ≤ off.toNat →
      exec (mk t off) s = .next (rejected .outOfRangeRead 0x02 s)) ∧
    OnlyWords (cmdTx.extractLsb' 0 8) [cmdTx, cmdRx]

/-- The rule of one header accessor (43_accessors_encodings.md R160 to R162): the encodings, ARG ignored; the byte at header offset
`off` of the frame, never an error, nothing but the outputs changed; every other word with the opcode illegal. -/
def HeaderRule (off : Nat) (mk : Target → Instr) (cmdTx cmdRx : Cmd) : Prop :=
  (∀ arg : Word, decode cmdTx arg = .ok (mk .tx) ∧ decode cmdRx arg = .ok (mk .rx)) ∧
    (∀ (s : State) (t : Target), ∃ b, (s.fbu t).raw[off]? = some b ∧
      exec (mk t) s = .next (answered (BitVec.ofNat 64 b.toNat) s)) ∧
    OnlyWords (cmdTx.extractLsb' 0 8) [cmdTx, cmdRx]

/-- The alphabet `A–Za–z0–9+/` of standard base64 (43_accessors_encodings.md R165). -/
def alphabet : List Byte :=
  "ABCDEFGHIJKLMNOPQRSTUVWXYZabcdefghijklmnopqrstuvwxyz0123456789+/".toList.map (fun c => BitVec.ofNat 8 c.toNat)

/-- The character of a 6-bit index. -/
def letter (n : Nat) : Byte := (alphabet[n % 64]?).getD 0

/-- Standard base64 of a list of bytes, three at a time, padded by how many bytes remain: one gives two `=`, two give one
(43_accessors_encodings.md R165, the source's words). -/
def base64 : List Byte → List Byte
  | [] => []
  | [a] => [letter (a.toNat / 4), letter (a.toNat * 16), 0x3D, 0x3D]
  | [a, b] => [letter (a.toNat / 4), letter (a.toNat * 16 + b.toNat / 16), letter (b.toNat * 4), 0x3D]
  | a :: b :: c :: rest =>
    letter (a.toNat / 4) :: letter (a.toNat * 16 + b.toNat / 16) :: letter (b.toNat * 4 + c.toNat / 64) ::
      letter c.toNat :: base64 rest

/-- The payload after a list of typed writes to `TX`: each that fits in 251 bytes appends its little-endian bytes, any other
appends nothing (41_writes.md R121). -/
def payloadAfter (payload : List Byte) : List Instr → List Byte
  | [] => payload
  | i :: rest =>
    match writeField i with
    | some (w, v) => payloadAfter (if payload.length + w ≤ 251 then payload ++ leBytes w v else payload) rest
    | none => payloadAfter payload rest

/-- Which commands write `TX`'s bytes: RESET and the typed writes (10_state.md R26). -/
def WritesTx (i : Instr) : Prop := (writeField i).isSome = true ∨ ∃ c d, i = .reset .tx c d

/-- The bits of ARG that a command takes its operands from (30_encoding.md R76). -/
def operandMask : Instr → Word
  | .reset _ _ _ => 0xFFFF
  | .wrU8 _ _ | .wrI8 _ _ => 0xFF
  | .wrU16 _ _ | .wrI16 _ _ => 0xFFFF
  | .wrU32 _ _ | .wrI32 _ _ | .wrF32 _ _ => 0xFFFFFFFF
  | .wrF64 _ _ => 0xFFFFFFFFFFFFFFFF
  | .rdU8At _ _ | .rdU32At _ _ | .rdF64At _ _ => 0xFFFF
  | .rdB64 _ _ => 0xFFFF
  | .feed _ _ => 0xFF
  | .clrDiag _ _ => 0xF
  | _ => 0

/-- The class, type and width of the commands whose opcode has type and width sub-fields (30_encoding.md R72, R74). -/
def subFields : Instr → Option (Nat × Nat × Nat)
  | .wrU8 _ _ => some (1, 0, 1)
  | .wrU16 _ _ => some (1, 0, 2)
  | .wrU32 _ _ => some (1, 0, 4)
  | .wrI8 _ _ => some (1, 1, 1)
  | .wrI16 _ _ => some (1, 1, 2)
  | .wrI32 _ _ => some (1, 1, 4)
  | .wrF32 _ _ => some (1, 2, 4)
  | .wrF64 _ _ => some (1, 2, 8)
  | .rdU8 _ => some (2, 0, 1)
  | .rdU16 _ => some (2, 0, 2)
  | .rdU32 _ => some (2, 0, 4)
  | .rdI8 _ => some (2, 1, 1)
  | .rdI16 _ => some (2, 1, 2)
  | .rdI32 _ => some (2, 1, 4)
  | .rdF32 _ => some (2, 2, 4)
  | .rdF64 _ => some (2, 2, 8)
  | .rdU8At _ _ => some (3, 0, 1)
  | .rdU32At _ _ => some (3, 0, 4)
  | .rdF64At _ _ => some (3, 2, 8)
  | _ => none

end Sys2Proof.Claims

open Sys2Proof Sys2Proof.Machine Sys2Proof.Claims

/-- 70_reset_and_hazards.md R250: the values reset leaves, and that `rst` gives them from any state whatever it held: the frames and
cursors, the deframer, DIAG and the outputs. Nothing is said of the stale bytes (10_state.md R25) or of the presentations still
waiting. -/
def Obligations.ResetLeavesTheSpecifiedState : Prop :=
  (State.reset.tx.raw = [0xFF, 0x01, 0x00, 0x00] ∧ State.reset.tx.cur = 4 ∧
    State.reset.rx.raw = [0xFF, 0x01, 0x00, 0x00] ∧ State.reset.rx.cur = 4 ∧
    State.reset.dfr.state = .start ∧ State.reset.dfr.capDev = 0 ∧ State.reset.dfr.capCmd = 0 ∧
    State.reset.dfr.capLen = 0 ∧ State.reset.diag = 0 ∧
    State.reset.resp = { rdata := 0, code := .ok, done := false } ∧ State.reset.frameDone = false) ∧
    ∀ (s : State) (rest : List Input), s.input = .rst :: rest →
      ∃ s', step s = .next s' ∧ s'.SameButStale { State.reset with input := s'.input }

/-- The invariant of Safety.lean holds right after reset. -/
def Obligations.InvariantHoldsAtReset : Prop := State.reset.Inv

/-- 10_state.md R24, 44_deframer.md R190, 10_state.md R31: every step keeps the invariant. -/
def Obligations.StepKeepsInvariant : Prop :=
  ∀ s s' : State, s.Inv → step s = .next s' → s'.Inv

/-- 10_state.md R24 in the spec's own words, for the units of every state that meets the invariant. -/
def Obligations.UnitInvariantsBoundTheFrame : Prop :=
  ∀ (s : State) (t : Target), s.Inv →
    (s.fbu t).raw[0]? = some 0xFF ∧ (s.fbu t).lenByte.toNat ≤ 251 ∧ 4 ≤ (s.fbu t).blen ∧ (s.fbu t).blen ≤ 255 ∧
      4 ≤ (s.fbu t).cur.toNat ∧ (s.fbu t).cur.toNat ≤ (s.fbu t).blen ∧ (s.fbu t).raw.length = (s.fbu t).blen

/-- 00_scope.md R8, R9, 60_exceptions.md R220: no step faults or is refused, in any state and whatever is presented. That a step
with nothing presented leaves the state as it is, is the model's choice (log 3). -/
def Obligations.EveryStepProceeds : Prop :=
  ∀ s : State, Proceeds (step s) ∧ (s.input = [] → step s = .next s)

/-- 00_scope.md R8, 30_encoding.md R70: a step with a host command presented is the decoded command, run on the state with that
presentation taken. -/
def Obligations.StepRunsTheDecodedCommand : Prop :=
  ∀ (s : State) (cmd : Cmd) (arg : Word) (rest : List Input) (i : Instr),
    s.input = .host cmd arg :: rest → decode cmd arg = .ok i → step s = exec i { s with input := rest }

/-- 44_deframer.md R192, 30_encoding.md R70: a stream byte is exactly FEED of that byte, its DONE driving `frame_done`. That the host
port's outputs then show the FEED's response is the model's choice (log 4). -/
def Obligations.StreamByteIsFeed : Prop :=
  ∀ (s : State) (b : Byte) (rest : List Input), s.input = .stream b :: rest →
    ∃ s', exec (.feed .tx b) { s with input := rest } = .next s' ∧
      step s = .next { s' with frameDone := s'.resp.done }

/-- 20_memory.md R60: a same-cycle pair is two consecutive steps, the stream byte and then the host command. -/
def Obligations.SameCyclePairIsStreamThenHost : Prop :=
  ∀ (s : State) (b : Byte) (cmd : Cmd) (arg : Word) (rest : List Input), s.input = .both b cmd arg :: rest →
    step s = step { s with input := .stream b :: .host cmd arg :: rest } ∧
      ∃ s', step s = .next s' ∧ s'.input = .host cmd arg :: rest

/-- 30_encoding.md R75, 60_exceptions.md R225: an illegal command word, by R75's three conditions, returns RESP 3 and RDATA 0, sets
DIAG bit 2 and changes nothing else, whatever its ARG; every other command word is a command. -/
def Obligations.IllegalCommandOnlyReports : Prop :=
  RespCode.illegalOp.bits = 3 ∧
    (∀ (s : State) (cmd : Cmd) (arg : Word) (rest : List Input), s.input = .host cmd arg :: rest → Illegal cmd →
      step s = .next (rejected .illegalOp 0x04 { s with input := rest })) ∧
    ∀ (cmd : Cmd) (arg : Word), ¬ Illegal cmd → ∃ i, decode cmd arg = .ok i

/-- 30_encoding.md R75: the decoder accepts exactly the legal words, and what it gives is well formed. -/
def Obligations.DecodesExactlyTheLegalWords : Prop :=
  ∀ (cmd : Cmd) (arg : Word),
    ((∃ i, decode cmd arg = .ok i) ↔ legalCmd cmd = true) ∧ ∀ i, decode cmd arg = .ok i → WellFormed i

/-- 30_encoding.md R75 condition 3: a command term on the `RX` target where R73 allows only `TX` raises IllegalOp. -/
def Obligations.IllFormedCommandRaisesIllegalOp : Prop :=
  ∀ (i : Instr) (s : State), ¬ WellFormed i → exec i s = .next (rejected .illegalOp 0x04 s)

/-- A few words written out from 30_encoding.md R71, R73 and R76, from the vectors of 95_test_vectors.md sections 2 and 3. -/
def Obligations.DecodesTheSpecsWords : Prop :=
  decode 0x0001 0x0309 = .ok (.reset .tx 9 3) ∧
    decode 0x0010 0x1FF = .ok (.wrU8 .tx 0xFF) ∧
    decode 0x001B 0x3FB999999999999A = .ok (.wrF64 .tx 0x3FB999999999999A) ∧
    decode 0x0125 0 = .ok (.rdI16 .rx) ∧
    decode 0x0030 0x10001 = .ok (.rdU8At .tx 1) ∧
    decode 0x0142 0 = .ok (.getCmd .rx) ∧
    decode 0x0150 12 = .ok (.rdB64 .rx 12) ∧
    decode 0x0060 0x1FF = .ok (.feed .tx 0xFF) ∧
    decode 0x0063 0xFFF0 = .ok (.clrDiag .tx 0) ∧
    decode 0x0163 0xF = .error .targetNotAllowed ∧
    decode 0x0031 0 = .error .unassignedOp ∧
    decode 0x8020 0 = .error .reservedBits

/-- 30_encoding.md R80: decoding the encoding of a well-formed command gives it back, every operand at every value. -/
def Obligations.DecodeInvertsEncode : Prop :=
  ∀ i : Instr, WellFormed i → decode (encode i).1 (encode i).2 = .ok i

/-- 30_encoding.md R76: a legal word has one meaning, and every bit of ARG that R76 does not name is ignored: encoding what was
decoded gives CMD back, and ARG with exactly the unnamed bits cleared. -/
def Obligations.EncodeInvertsDecode : Prop :=
  ∀ (cmd : Cmd) (arg : Word) (i : Instr), decode cmd arg = .ok i → encode i = (cmd, arg &&& operandMask i)

/-- 30_encoding.md R72: class, type and width of every write and read are the opcode's sub-fields, and an accessor's header offset
is `op[1:0]`. -/
def Obligations.OpcodeSubFieldsGiveClassTypeAndWidth : Prop :=
  (∀ (i : Instr) (c ty w : Nat), subFields i = some (c, ty, w) →
    opClass i.opcode = c ∧ opType i.opcode = ty ∧ opWidth i.opcode = w) ∧
    ∀ t : Target, ((Instr.getDev t).opcode.extractLsb' 0 2 = 1 ∧ opClass (Instr.getDev t).opcode = 4) ∧
      ((Instr.getCmd t).opcode.extractLsb' 0 2 = 2 ∧ opClass (Instr.getCmd t).opcode = 4) ∧
      ((Instr.getLen t).opcode.extractLsb' 0 2 = 3 ∧ opClass (Instr.getLen t).opcode = 4)

/-- 40_frame_control.md R100: what FrameReset leaves in a unit: the header, the length 0, the cursor 4, `BLEN` 4; every byte from
offset 4 on stays (stale). -/
def Obligations.FrameResetWritesTheHeader : Prop :=
  ∀ (f : Fbu) (c d : Byte), Memory.wf f.buf = true →
    (f.frameReset c d).raw = [0xFF, d, c, 0x00] ∧ (f.frameReset c d).cur = 4 ∧ (f.frameReset c d).blen = 4 ∧
      ∀ a, 4 ≤ a → Memory.read (f.frameReset c d).buf a = Memory.read f.buf a

/-- 40_frame_control.md R101: RESET c, d, its encoding, its effect on `TX` from any prior state, and all it leaves alone. -/
def Obligations.ResetCommandEmptiesTx : Prop :=
  (∀ arg : Word, decode 0x0001 arg = .ok (.reset .tx (arg.extractLsb' 0 8) (arg.extractLsb' 8 8))) ∧
    (∀ (s : State) (c d : Byte), s.tx.Inv →
      ∃ s', exec (.reset .tx c d) s = .next s' ∧ s'.tx.raw = [0xFF, d, c, 0x00] ∧ s'.tx.cur = 4 ∧
        (∀ a, 4 ≤ a → Memory.read s'.tx.buf a = Memory.read s.tx.buf a) ∧
        s'.rx = s.rx ∧ s'.dfr = s.dfr ∧ s'.diag = s.diag ∧ s'.input = s.input ∧
        s'.resp = { rdata := 0, code := .ok, done := false } ∧ s'.frameDone = false) ∧
    (∀ (s : State) (c d : Byte), exec (.reset .rx c d) s = .next (rejected .illegalOp 0x04 s)) ∧
    OnlyWords 0x01 [0x0001]

/-- 40_frame_control.md R102 (derived there): after RESET the accessors return 0, c and d, and a second RESET changes nothing. -/
def Obligations.ResetCommandIsIdempotent : Prop :=
  ∀ (s : State) (c d : Byte), s.tx.Inv →
    ∃ s', exec (.reset .tx c d) s = .next s' ∧
      exec (.getLen .tx) s' = .next (answered 0 s') ∧
      exec (.getCmd .tx) s' = .next (answered (BitVec.ofNat 64 c.toNat) s') ∧
      exec (.getDev .tx) s' = .next (answered (BitVec.ofNat 64 d.toNat) s') ∧
      exec (.reset .tx c d) s' = .next s'

/-- 41_writes.md R110: the append primitive, on either unit and for every width. -/
def Obligations.AppendStoresAllOrNothing : Prop :=
  ∀ (t : Target) (w v : Nat) (s : State), w ∈ [1, 2, 4, 8] → v < 2 ^ (8 * w) → (s.fbu t).Inv →
    ((s.fbu t).blen + w ≤ 255 ↔ (s.fbu t).lenByte.toNat + w ≤ 251) ∧
      ((s.fbu t).blen + w ≤ 255 → ∃ s', append t w v s = .next s' ∧ Appended t w v s s') ∧
      (255 < (s.fbu t).blen + w → append t w v s = .next (rejected .oversizeWrite 0x01 s))

/-- 41_writes.md R111 to R113 (derived there from R110): the unsigned writes. -/
def Obligations.UnsignedWritesAppend : Prop :=
  WriteRule 1 Instr.wrU8 0x0010 ∧ WriteRule 2 Instr.wrU16 0x0011 ∧ WriteRule 4 Instr.wrU32 0x0012

/-- 41_writes.md R114 to R116: the signed writes, bit-identical to the unsigned ones. -/
def Obligations.SignedWritesAppend : Prop :=
  WriteRule 1 Instr.wrI8 0x0014 ∧ WriteRule 2 Instr.wrI16 0x0015 ∧ WriteRule 4 Instr.wrI32 0x0016 ∧
    (∀ (t : Target) (s : State), (∀ v, exec (.wrI8 t v) s = exec (.wrU8 t v) s) ∧
      (∀ v, exec (.wrI16 t v) s = exec (.wrU16 t v) s) ∧ (∀ v, exec (.wrI32 t v) s = exec (.wrU32 t v) s))

/-- 41_writes.md R117, R118: the float writes store the raw bits. -/
def Obligations.FloatWritesAppend : Prop :=
  WriteRule 4 Instr.wrF32 0x001A ∧ WriteRule 8 Instr.wrF64 0x001B

/-- 41_writes.md R120 (derived there): on a full frame every write fails; a write that lands exactly on 255 bytes succeeds and
leaves `GET_LEN` = 251. -/
def Obligations.WriteBoundaryLaw : Prop :=
  ∀ (i : Instr) (w v : Nat) (s : State), writeField i = some (w, v) → s.tx.Inv →
    (s.tx.blen = 255 → exec i s = .next (rejected .oversizeWrite 0x01 s)) ∧
      (s.tx.blen + w = 255 →
        ∃ s', exec i s = .next s' ∧ s'.tx.blen = 255 ∧ exec (.getLen .tx) s' = .next (answered 251 s'))

/-- 41_writes.md R121 (derived there): RESET and then any list of typed writes, presented as encoded commands and run by `step`,
leaves the header, the length that counts the payload, and as payload the little-endian bytes of the writes that fit, in order. -/
def Obligations.LengthFieldLaw : Prop :=
  ∀ (s : State) (c d : Byte) (ws : List Instr), s.Inv → (∀ i ∈ ws, (writeField i).isSome = true) →
    ∃ s', Host.Core.run Sys2Proof.core (ws.length + 1) (s.presenting (.reset .tx c d :: ws)) = .next s' ∧
      s'.tx.raw = [0xFF, d, c, BitVec.ofNat 8 (payloadAfter [] ws).length] ++ payloadAfter [] ws ∧
      s'.rx = s.rx ∧ s'.dfr = s.dfr

/-- 42_reads.md R130: the sequential read primitive, for every width and either unit; and no append moves a cursor. -/
def Obligations.SequentialReadConsumesTheNextBytes : Prop :=
  ∀ (t : Target) (w : Nat) (form : Nat → Word) (s : State), w ∈ [1, 2, 4, 8] → (s.fbu t).Inv →
    ((s.fbu t).cur.toNat + w ≤ (s.fbu t).blen →
      ∃ s', seqRead t w form s = .next s' ∧
        s'.resp = { rdata := form (fieldValue (s.fbu t) (s.fbu t).cur.toNat w), code := .ok, done := false } ∧
        (s'.fbu t).cur.toNat = (s.fbu t).cur.toNat + w ∧ (s'.fbu t).buf = (s.fbu t).buf ∧
        (∀ u, u ≠ t → s'.fbu u = s.fbu u) ∧ s'.dfr = s.dfr ∧ s'.diag = s.diag ∧ s'.input = s.input ∧
        s'.frameDone = false) ∧
      ((s.fbu t).blen < (s.fbu t).cur.toNat + w → seqRead t w form s = .next (rejected .outOfRangeRead 0x02 s)) ∧
      ∀ (u : Target) (v : Nat) (s' : State), append u w v s = .next s' → (s'.fbu t).cur = (s.fbu t).cur

/-- 42_reads.md R131 to R133: the unsigned sequential reads return `zext_64(V)`. -/
def Obligations.UnsignedReadsZeroExtend : Prop :=
  SeqReadRule 1 Instr.rdU8 (BitVec.ofNat 64) 0x0020 0x0120 ∧
    SeqReadRule 2 Instr.rdU16 (BitVec.ofNat 64) 0x0021 0x0121 ∧
    SeqReadRule 4 Instr.rdU32 (BitVec.ofNat 64) 0x0022 0x0122

/-- 42_reads.md R134 to R136: the signed sequential reads return the two's-complement value of their width. -/
def Obligations.SignedReadsSignExtend : Prop :=
  SeqReadRule 1 Instr.rdI8 (signed 1) 0x0024 0x0124 ∧
    SeqReadRule 2 Instr.rdI16 (signed 2) 0x0025 0x0125 ∧
    SeqReadRule 4 Instr.rdI32 (signed 4) 0x0026 0x0126

/-- 42_reads.md R137, R138: the float sequential reads return the raw bits. -/
def Obligations.FloatReadsReturnRawBits : Prop :=
  SeqReadRule 4 Instr.rdF32 (BitVec.ofNat 64) 0x002A 0x012A ∧
    SeqReadRule 8 Instr.rdF64 (BitVec.ofNat 64) 0x002B 0x012B

/-- 42_reads.md R140 to R143: the offset reads, of header bytes as well as payload, leave the cursor and everything but the outputs
alone. -/
def Obligations.OffsetReadsReturnTheField : Prop :=
  OffReadRule 1 Instr.rdU8At 0x0030 0x0130 ∧ OffReadRule 4 Instr.rdU32At 0x0032 0x0132 ∧
    OffReadRule 8 Instr.rdF64At 0x003B 0x013B

/-- 43_accessors_encodings.md R160 to R162: the header accessors; a length is at most 251 in a unit that meets its invariants, and
during assembly `GET_LEN.rx` is the number of payload bytes received. -/
def Obligations.HeaderAccessorsReadFixedOffsets : Prop :=
  HeaderRule 1 Instr.getDev 0x0041 0x0141 ∧ HeaderRule 2 Instr.getCmd 0x0042 0x0142 ∧
    HeaderRule 3 Instr.getLen 0x0043 0x0143 ∧
    ∀ (s : State) (t : Target), (s.fbu t).Inv →
      ∃ n, n ≤ 251 ∧ exec (.getLen t) s = .next (answered (BitVec.ofNat 64 n) s) ∧ (s.fbu t).raw.length = 4 + n

/-- 43_accessors_encodings.md R165, R166: RD_B64 k returns character k of the standard base64 of the frame, OutOfRangeRead past its
end, and changes nothing but the outputs. -/
def Obligations.RdB64ReadsStandardBase64 : Prop :=
  (∀ arg : Word, decode 0x0050 arg = .ok (.rdB64 .tx (arg.extractLsb' 0 16)) ∧
    decode 0x0150 arg = .ok (.rdB64 .rx (arg.extractLsb' 0 16))) ∧
    (∀ (s : State) (t : Target) (k : BitVec 16), (s.fbu t).Inv →
      (∀ c, (base64 (s.fbu t).raw)[k.toNat]? = some c →
        exec (.rdB64 t k) s = .next (answered (BitVec.ofNat 64 c.toNat) s)) ∧
      ((base64 (s.fbu t).raw)[k.toNat]? = none → exec (.rdB64 t k) s = .next (rejected .outOfRangeRead 0x02 s)) ∧
      (base64 (s.fbu t).raw).length = 4 * (((s.fbu t).blen + 2) / 3)) ∧
    OnlyWords 0x50 [0x0050, 0x0150]

/-- 43_accessors_encodings.md R167 (derived there): the length of the base64 form, how many `=` it has, and that they stand in the
last two places only. -/
def Obligations.Base64LengthAndPadding : Prop :=
  ∀ f : Fbu, f.Inv →
    f.b64.length = 4 * ((f.blen + 2) / 3) ∧ 8 ≤ f.b64.length ∧ f.b64.length ≤ 340 ∧
      f.b64.count 0x3D = (3 - f.blen % 3) % 3 ∧
      ∀ k, f.b64[k]? = some 0x3D → f.b64.length - 2 ≤ k

/-- 43_accessors_encodings.md R163, R164, 30_encoding.md R81: the RAW expansion, presented to a block that nothing else drives,
answers the length and then the frame's bytes in order. -/
def Obligations.RawReadoutReturnsTheFrame : Prop :=
  ∀ (s : State) (t : Target), s.Inv →
    observe (1 + (s.fbu t).blen) (s.presenting (Pseudo.expand (s.fbu t).blen (.raw t))) =
      (BitVec.ofNat 64 ((s.fbu t).blen - 4) :: (s.fbu t).raw.map (fun b => BitVec.ofNat 64 b.toNat)).map
        (fun v => ({ rdata := v, code := .ok, done := false }, false))

/-- 43_accessors_encodings.md R165, R166, 30_encoding.md R81: the BASE64 expansion, presented to a block that nothing else drives,
answers the length and then the characters of the frame's base64 form in order. -/
def Obligations.Base64ReadoutReturnsTheForm : Prop :=
  ∀ (s : State) (t : Target), s.Inv →
    observe (1 + 4 * (((s.fbu t).blen + 2) / 3)) (s.presenting (Pseudo.expand (s.fbu t).blen (.base64 t))) =
      (BitVec.ofNat 64 ((s.fbu t).blen - 4) :: (base64 (s.fbu t).raw).map (fun b => BitVec.ofNat 64 b.toNat)).map
        (fun v => ({ rdata := v, code := .ok, done := false }, false))

/-- 42_reads.md R144 (derived there): a fresh RESET, a write and the matching sequential read give the value back, for each of the
eight types. -/
def Obligations.WriteThenReadRoundTrips : Prop :=
  ∀ (s : State) (c d : Byte), s.tx.Inv → ∃ s₁, exec (.reset .tx c d) s = .next s₁ ∧
    (∀ v, ∃ s₂ s₃, exec (.wrU8 .tx v) s₁ = .next s₂ ∧ exec (.rdU8 .tx) s₂ = .next s₃ ∧
      s₃.resp = { rdata := v.setWidth 64, code := .ok, done := false }) ∧
    (∀ v, ∃ s₂ s₃, exec (.wrU16 .tx v) s₁ = .next s₂ ∧ exec (.rdU16 .tx) s₂ = .next s₃ ∧
      s₃.resp = { rdata := v.setWidth 64, code := .ok, done := false }) ∧
    (∀ v, ∃ s₂ s₃, exec (.wrU32 .tx v) s₁ = .next s₂ ∧ exec (.rdU32 .tx) s₂ = .next s₃ ∧
      s₃.resp = { rdata := v.setWidth 64, code := .ok, done := false }) ∧
    (∀ v, ∃ s₂ s₃, exec (.wrI8 .tx v) s₁ = .next s₂ ∧ exec (.rdI8 .tx) s₂ = .next s₃ ∧
      s₃.resp = { rdata := v.signExtend 64, code := .ok, done := false }) ∧
    (∀ v, ∃ s₂ s₃, exec (.wrI16 .tx v) s₁ = .next s₂ ∧ exec (.rdI16 .tx) s₂ = .next s₃ ∧
      s₃.resp = { rdata := v.signExtend 64, code := .ok, done := false }) ∧
    (∀ v, ∃ s₂ s₃, exec (.wrI32 .tx v) s₁ = .next s₂ ∧ exec (.rdI32 .tx) s₂ = .next s₃ ∧
      s₃.resp = { rdata := v.signExtend 64, code := .ok, done := false }) ∧
    (∀ v, ∃ s₂ s₃, exec (.wrF32 .tx v) s₁ = .next s₂ ∧ exec (.rdF32 .tx) s₂ = .next s₃ ∧
      s₃.resp = { rdata := v.setWidth 64, code := .ok, done := false }) ∧
    (∀ v, ∃ s₂ s₃, exec (.wrF64 .tx v) s₁ = .next s₂ ∧ exec (.rdF64 .tx) s₂ = .next s₃ ∧
      s₃.resp = { rdata := v, code := .ok, done := false })

/-- 42_reads.md R145 (derived there): a read rejected on an empty frame leaves the cursor where the next written byte is read. -/
def Obligations.RejectedReadKeepsTheCursor : Prop :=
  ∀ (s : State) (c d x : Byte), s.tx.Inv →
    ∃ s₁ s₂ s₃ s₄, exec (.reset .tx c d) s = .next s₁ ∧ exec (.rdU8 .tx) s₁ = .next s₂ ∧
      exec (.wrU8 .tx x) s₂ = .next s₃ ∧ exec (.rdU8 .tx) s₃ = .next s₄ ∧
      s₂.resp = { rdata := 0, code := .outOfRangeRead, done := false } ∧ s₂.tx = s₁.tx ∧
      s₄.resp = { rdata := BitVec.ofNat 64 x.toNat, code := .ok, done := false }

/-- 20_memory.md R53 (derived there): a 32-bit field read as single bytes gives the least significant first, and four bytes written
singly read as one word `{b3, b2, b1, b0}`. -/
def Obligations.MixedWidthAccessSeesLittleEndianBytes : Prop :=
  (∀ (s : State) (t : Target) (off : BitVec 16) (v : BitVec 32), (s.fbu t).Inv → off.toNat + 4 ≤ (s.fbu t).blen →
    (∀ i, i < 4 → Memory.read (s.fbu t).buf (off.toNat + i) = v.extractLsb' (8 * i) 8) →
    exec (.rdU32At t off) s = .next (answered (v.setWidth 64) s)) ∧
    ∀ (s : State) (v : BitVec 32), s.tx.Inv → s.tx.blen + 4 ≤ 255 →
      ∃ s', exec (.wrU32 .tx v) s = .next s' ∧
        ∀ i, i < 4 → exec (.rdU8At .tx (BitVec.ofNat 16 (s.tx.blen + i))) s' =
          .next (answered ((v.extractLsb' (8 * i) 8).setWidth 64) s')

/-- 44_deframer.md R180: FEED, its encoding and what holds of it in every state that meets the invariant: it answers OK with RDATA
the DONE bit, `TX` and the queue are untouched, and DIAG changes only by LEN_OVERFLOW, in state LENGTH on a byte above 251. -/
def Obligations.FeedAlwaysAnswersOk : Prop :=
  (∀ arg : Word, decode 0x0060 arg = .ok (.feed .tx (arg.extractLsb' 0 8))) ∧
    (∀ (s : State) (b : Byte), s.Inv →
      ∃ (s' : State) (done : Bool), exec (.feed .tx b) s = .next s' ∧ s'.resp = feedResp done ∧ s'.frameDone = false ∧
        s'.tx = s.tx ∧ s'.input = s.input ∧
        s'.diag = if s.dfr.state = .length ∧ 251 < b.toNat then s.diag ||| 0x08 else s.diag) ∧
    (∀ (s : State) (b : Byte), exec (.feed .rx b) s = .next (rejected .illegalOp 0x04 s)) ∧
    OnlyWords 0x60 [0x0060]

/-- 44_deframer.md R181: state START takes the marker and discards any other byte. -/
def Obligations.FeedInStartFindsTheMarker : Prop :=
  ∀ (s : State) (b : Byte), s.dfr.state = .start →
    (b = 0xFF → exec (.feed .tx b) s =
      .next { s with dfr := { s.dfr with state := .device }, resp := feedResp false, frameDone := false }) ∧
      (b ≠ 0xFF → exec (.feed .tx b) s = .next { s with resp := feedResp false, frameDone := false })

/-- 44_deframer.md R182, R183: states DEVICE and COMMAND capture any byte, 0xFF included. -/
def Obligations.FeedCapturesTheHeader : Prop :=
  ∀ (s : State) (b : Byte),
    (s.dfr.state = .device → exec (.feed .tx b) s =
      .next { s with dfr := { s.dfr with capDev := b, state := .command }, resp := feedResp false, frameDone := false }) ∧
      (s.dfr.state = .command → exec (.feed .tx b) s =
        .next { s with dfr := { s.dfr with capCmd := b, state := .length }, resp := feedResp false, frameDone := false })

/-- 44_deframer.md R184: state LENGTH resets `RX` with the captured header for every byte; then (a) 0 completes, (b) 1..251 goes to
DATA, (c) 252..255 sets LEN_OVERFLOW and returns to START. -/
def Obligations.FeedInLengthStartsOrAbandonsTheFrame : Prop :=
  ∀ (s : State) (b : Byte), s.rx.Inv → s.dfr.state = .length →
    ∃ s', exec (.feed .tx b) s = .next s' ∧
      s'.rx.raw = [0xFF, s.dfr.capDev, s.dfr.capCmd, 0x00] ∧ s'.rx.cur = 4 ∧
      (∀ a, 4 ≤ a → Memory.read s'.rx.buf a = Memory.read s.rx.buf a) ∧
      s'.tx = s.tx ∧ s'.input = s.input ∧ s'.frameDone = false ∧
      s'.dfr.capDev = s.dfr.capDev ∧ s'.dfr.capCmd = s.dfr.capCmd ∧ s'.dfr.capLen = b ∧
      (b.toNat = 0 → s'.dfr.state = .start ∧ s'.resp = feedResp true ∧ s'.diag = s.diag) ∧
      (1 ≤ b.toNat ∧ b.toNat ≤ 251 → s'.dfr.state = .data ∧ s'.resp = feedResp false ∧ s'.diag = s.diag) ∧
      (252 ≤ b.toNat → s'.dfr.state = .start ∧ s'.resp = feedResp false ∧ s'.diag = s.diag ||| 0x08)

/-- 44_deframer.md R185, R187: state DATA appends the byte to `RX`'s payload, whatever it is, and completes the frame exactly when
the payload length equals the declared one. -/
def Obligations.FeedInDataAppendsThePayload : Prop :=
  ∀ (s : State) (b : Byte), s.Inv → s.dfr.state = .data →
    ∃ s', exec (.feed .tx b) s = .next s' ∧
      s'.rx.lenByte.toNat = s.rx.lenByte.toNat + 1 ∧
      Memory.read s'.rx.buf s.rx.blen = b ∧
      (∀ a, a ≠ 3 → a ≠ s.rx.blen → Memory.read s'.rx.buf a = Memory.read s.rx.buf a) ∧
      s'.rx.cur = s.rx.cur ∧ s'.tx = s.tx ∧ s'.diag = s.diag ∧ s'.input = s.input ∧ s'.frameDone = false ∧
      s'.dfr.capDev = s.dfr.capDev ∧ s'.dfr.capCmd = s.dfr.capCmd ∧ s'.dfr.capLen = s.dfr.capLen ∧
      (s.rx.lenByte.toNat + 1 = s.dfr.capLen.toNat → s'.dfr.state = .start ∧ s'.resp = feedResp true) ∧
      (s.rx.lenByte.toNat + 1 ≠ s.dfr.capLen.toNat → s'.dfr.state = .data ∧ s'.resp = feedResp false)

/-- 44_deframer.md R186 (derived there): when DONE is 1, `RX` holds the whole frame that the captured header declares and the
deframer is back in START; DONE is 1 on no command but FEED (10_state.md R30). -/
def Obligations.DoneMarksACompleteFrame : Prop :=
  ∀ (i : Instr) (s s' : State), s.Inv → exec i s = .next s' → s'.resp.done = true →
    (∃ b, i = .feed .tx b) ∧ s'.dfr.state = .start ∧ s'.rx.blen = 4 + s'.dfr.capLen.toNat ∧
      s'.rx.raw.take 4 = [0xFF, s'.dfr.capDev, s'.dfr.capCmd, s'.dfr.capLen]

/-- 44_deframer.md R193 (derived there): from any state that meets the invariant, at most 254 bytes, whatever they are, bring the
deframer to START. -/
def Obligations.DeframerRecoversWithin254Bytes : Prop :=
  ∀ (s : State) (bs : List Byte), s.Inv → bs.length = 254 →
    ∃ n s', n ≤ 254 ∧ Host.Core.run Sys2Proof.core n (s.streaming bs) = .next s' ∧ s'.dfr.state = .start

/-- 44_deframer.md R194 (derived there): a well-formed frame fed in START gives DONE 0 on every byte but the last and 1 on the last,
and is then `RX`'s frame; `frame_done` is that same pulse (R192). -/
def Obligations.WellFormedFrameIsReassembled : Prop :=
  ∀ (s : State) (d c : Byte) (payload : List Byte), s.Inv → s.dfr.state = .start → payload.length ≤ 251 →
    (∀ n, n < 4 + payload.length →
      ∃ s', Host.Core.run Sys2Proof.core (n + 1)
          (s.streaming ([0xFF, d, c, BitVec.ofNat 8 payload.length] ++ payload)) = .next s' ∧
        s'.resp.code = .ok ∧ s'.resp.done = decide (n + 1 = 4 + payload.length) ∧ s'.frameDone = s'.resp.done) ∧
      ∃ s', Host.Core.run Sys2Proof.core (4 + payload.length)
          (s.streaming ([0xFF, d, c, BitVec.ofNat 8 payload.length] ++ payload)) = .next s' ∧
        s'.rx.raw = [0xFF, d, c, BitVec.ofNat 8 payload.length] ++ payload ∧ s'.rx.cur = 4 ∧ s'.dfr.state = .start ∧
        s'.tx = s.tx ∧ s'.diag = s.diag

/-- 44_deframer.md R194: the deframer inverts the framer: the frame of `TX`, fed byte by byte, reappears in `RX`. -/
def Obligations.DeframerInvertsFramer : Prop :=
  ∀ s : State, s.Inv → s.dfr.state = .start →
    ∃ s', Host.Core.run Sys2Proof.core s.tx.blen (s.streaming s.tx.raw) = .next s' ∧
      s'.rx.raw = s.tx.raw ∧ s'.tx = s.tx ∧ s'.dfr.state = .start ∧ s'.resp.done = true

/-- 70_reset_and_hazards.md R253: a completed frame in `RX` outlives the next three stream bytes, whatever they are, and the fourth
destroys it when the four are a marker and a header. -/
def Obligations.RxFrameOutlivesThreeBytes : Prop :=
  ∀ s : State, s.Inv → s.dfr.state = .start →
    (∀ bs : List Byte, bs.length = 3 →
      ∃ s', Host.Core.run Sys2Proof.core 3 (s.streaming bs) = .next s' ∧ s'.rx = s.rx) ∧
      ∀ d c n : Byte, ∃ s', Host.Core.run Sys2Proof.core 4 (s.streaming [0xFF, d, c, n]) = .next s' ∧
        s'.rx.raw = [0xFF, d, c, 0x00] ∧ s'.rx.cur = 4

/-- 45_status_diag.md R210, 10_state.md R28, R32: RD_STATUS returns the deframer's state code and capture registers in their fields,
zero elsewhere, and changes nothing but the outputs; each capture register is rewritten only by the byte fed in its own
state. -/
def Obligations.RdStatusReturnsTheDeframerView : Prop :=
  (∀ arg : Word, decode 0x0061 arg = .ok (.rdStatus .tx)) ∧
    (DfrState.start.code = 0 ∧ DfrState.device.code = 1 ∧ DfrState.command.code = 2 ∧ DfrState.length.code = 3 ∧
      DfrState.data.code = 4) ∧
    (∀ s : State, ∃ v : Word, exec (.rdStatus .tx) s = .next (answered v s) ∧
      v.extractLsb' 0 3 = s.dfr.state.code ∧ v.extractLsb' 3 5 = 0 ∧ v.extractLsb' 8 8 = s.dfr.capDev ∧
      v.extractLsb' 16 8 = s.dfr.capCmd ∧ v.extractLsb' 24 8 = s.dfr.capLen ∧ v.extractLsb' 32 32 = 0) ∧
    (∀ (i : Instr) (s s' : State), exec i s = .next s' →
      (s'.dfr.capDev ≠ s.dfr.capDev → s.dfr.state = .device ∧ i = .feed .tx s'.dfr.capDev) ∧
        (s'.dfr.capCmd ≠ s.dfr.capCmd → s.dfr.state = .command ∧ i = .feed .tx s'.dfr.capCmd) ∧
        (s'.dfr.capLen ≠ s.dfr.capLen → s.dfr.state = .length ∧ i = .feed .tx s'.dfr.capLen)) ∧
    OnlyWords 0x61 [0x0061]

/-- 45_status_diag.md R211: RD_DIAG returns DIAG, bits 7:4 reading 0, and does not clear it. -/
def Obligations.RdDiagReturnsTheStickyBits : Prop :=
  (∀ arg : Word, decode 0x0062 arg = .ok (.rdDiag .tx)) ∧
    (∀ s : State, ∃ v : Word, exec (.rdDiag .tx) s = .next (answered v s) ∧
      (∀ n, n < 4 → v.getLsbD n = s.diag.getLsbD n) ∧ (∀ n, 4 ≤ n → v.getLsbD n = false)) ∧
    OnlyWords 0x62 [0x0062]

/-- 45_status_diag.md R212: CLR_DIAG m clears exactly the selected bits of DIAG[3:0]; on the `RX` target it clears nothing. -/
def Obligations.ClrDiagIsWriteOneToClear : Prop :=
  (∀ arg : Word, decode 0x0063 arg = .ok (.clrDiag .tx (arg.extractLsb' 0 4))) ∧
    (∀ (s : State) (m : BitVec 4), ∃ d : BitVec 8,
      exec (.clrDiag .tx m) s = .next (answered 0 { s with diag := d }) ∧
        (∀ n, n < 4 → d.getLsbD n = (s.diag.getLsbD n && !m.getLsbD n)) ∧
        ∀ n, 4 ≤ n → d.getLsbD n = s.diag.getLsbD n) ∧
    (∀ (s : State) (m : BitVec 4), exec (.clrDiag .rx m) s = .next (rejected .illegalOp 0x04 s)) ∧
    OnlyWords 0x63 [0x0063]

/-- 10_state.md R31: a sticky bit is cleared by nothing but `rst` and a CLR_DIAG whose mask selects it; and each bit is set by its event
and by no other. -/
def Obligations.DiagBitsAreSticky : Prop :=
  (∀ (s s' : State) (n : Nat), step s = .next s' → s.diag.getLsbD n = true → s'.diag.getLsbD n = false →
    (∃ rest, s.input = .rst :: rest) ∨
      ∃ cmd arg rest m, s.input = .host cmd arg :: rest ∧ decode cmd arg = .ok (.clrDiag .tx m) ∧ m.getLsbD n = true) ∧
    ∀ (i : Instr) (s s' : State), exec i s = .next s' →
      (s'.resp.code = .oversizeWrite → s'.diag.getLsbD 0 = true) ∧
      (s'.resp.code = .outOfRangeRead → s'.diag.getLsbD 1 = true) ∧
      (s'.resp.code = .illegalOp → s'.diag.getLsbD 2 = true) ∧
      (∀ b, i = .feed .tx b → s.dfr.state = .length → 251 < b.toNat → s'.diag.getLsbD 3 = true) ∧
      ∀ n, s.diag.getLsbD n = false → s'.diag.getLsbD n = true →
        (n = 0 ∧ s'.resp.code = .oversizeWrite) ∨ (n = 1 ∧ s'.resp.code = .outOfRangeRead) ∨
          (n = 2 ∧ s'.resp.code = .illegalOp) ∨
          (n = 3 ∧ ∃ b, i = .feed .tx b ∧ s.dfr.state = .length ∧ 251 < b.toNat)

/-- 60_exceptions.md R220, 00_scope.md R12, 30_encoding.md R77: every response other than OK comes with RDATA 0 and its own DIAG
bit, and leaves everything else as it was. -/
def Obligations.ErrorsArePrecise : Prop :=
  ∀ (i : Instr) (s s' : State), exec i s = .next s' → s'.resp.code ≠ .ok →
    (s' = rejected .oversizeWrite 0x01 s ∨ s' = rejected .outOfRangeRead 0x02 s ∨ s' = rejected .illegalOp 0x04 s)

/-- 10_state.md R26, 20_memory.md R51: no host command but FEED writes a byte of `RX`; only RESET and the typed writes write a byte
of `TX`; a cursor is moved only by a sequential read of its unit, by RESET (`TX`) and by FEED (`RX`); the deframer's registers move
only by FEED. -/
def Obligations.UnitsAreWrittenOnlyByTheirOwners : Prop :=
  ∀ (i : Instr) (s s' : State), exec i s = .next s' →
    (s'.rx.buf ≠ s.rx.buf → ∃ b, i = .feed .tx b) ∧
      (s'.rx.cur ≠ s.rx.cur → SeqReads .rx i ∨ ∃ b, i = .feed .tx b) ∧
      (s'.dfr ≠ s.dfr → ∃ b, i = .feed .tx b) ∧
      (s'.tx.buf ≠ s.tx.buf → WritesTx i) ∧
      (s'.tx.cur ≠ s.tx.cur → SeqReads .tx i ∨ ∃ c d, i = .reset .tx c d) ∧
      s'.input = s.input

/-- 10_state.md R25: stale bytes are unobservable: two states that meet the invariant and differ at most in stale bytes give the
same responses on every run. -/
def Obligations.StaleBytesAreUnobservable : Prop :=
  ∀ (n : Nat) (s t : State), s.Inv → t.Inv → s.SameButStale t → observe n s = observe n t
end

