-- ==== Sys2Proof/Laws/State.lean ====
section
/-! SUPPORT. What each update of State leaves in each field. -/

namespace Sys2Proof.Machine

variable (s : State) (t : Target) (f : Fbu) (k : ErrorKind) (code : RespCode) (v : Word) (done : Bool)

@[simp] theorem fbu_tx : s.fbu .tx = s.tx := rfl
@[simp] theorem fbu_rx : s.fbu .rx = s.rx := rfl

@[simp] theorem setFbu_tx_tx : (s.setFbu .tx f).tx = f := rfl
@[simp] theorem setFbu_tx_rx : (s.setFbu .tx f).rx = s.rx := rfl
@[simp] theorem setFbu_rx_rx : (s.setFbu .rx f).rx = f := rfl
@[simp] theorem setFbu_rx_tx : (s.setFbu .rx f).tx = s.tx := rfl
@[simp] theorem setFbu_dfr : (s.setFbu t f).dfr = s.dfr := by cases t <;> rfl
@[simp] theorem setFbu_diag : (s.setFbu t f).diag = s.diag := by cases t <;> rfl
@[simp] theorem setFbu_resp : (s.setFbu t f).resp = s.resp := by cases t <;> rfl
@[simp] theorem setFbu_frameDone : (s.setFbu t f).frameDone = s.frameDone := by cases t <;> rfl
@[simp] theorem setFbu_input : (s.setFbu t f).input = s.input := by cases t <;> rfl
@[simp] theorem fbu_setFbu_self : (s.setFbu t f).fbu t = f := by cases t <;> rfl

theorem fbu_setFbu_other {t u : Target} (h : u ≠ t) : (s.setFbu t f).fbu u = s.fbu u := by
  cases t <;> cases u <;> first | rfl | exact absurd rfl h

@[simp] theorem respond_tx : (respond code v done s).tx = s.tx := rfl
@[simp] theorem respond_rx : (respond code v done s).rx = s.rx := rfl
@[simp] theorem respond_fbu : (respond code v done s).fbu t = s.fbu t := by cases t <;> rfl
@[simp] theorem respond_dfr : (respond code v done s).dfr = s.dfr := rfl
@[simp] theorem respond_diag : (respond code v done s).diag = s.diag := rfl
@[simp] theorem respond_resp : (respond code v done s).resp = ⟨v, code, done⟩ := rfl
@[simp] theorem respond_frameDone : (respond code v done s).frameDone = false := rfl
@[simp] theorem respond_input : (respond code v done s).input = s.input := rfl

@[simp] theorem raise_tx : (raise k s).tx = s.tx := rfl
@[simp] theorem raise_rx : (raise k s).rx = s.rx := rfl
@[simp] theorem raise_fbu : (raise k s).fbu t = s.fbu t := by cases t <;> rfl
@[simp] theorem raise_dfr : (raise k s).dfr = s.dfr := rfl
@[simp] theorem raise_diag : (raise k s).diag = s.diag ||| k.diagMask := rfl
@[simp] theorem raise_resp : (raise k s).resp = ⟨0, k.code, false⟩ := rfl
@[simp] theorem raise_frameDone : (raise k s).frameDone = false := rfl
@[simp] theorem raise_input : (raise k s).input = s.input := rfl

@[simp] theorem hdrLen_eq : Config.hdrLen = 4 := rfl
@[simp] theorem frameMax_eq : Config.frameMax = 255 := rfl
@[simp] theorem payloadMax_eq : Config.payloadMax = 251 := rfl

end Sys2Proof.Machine
end

