-- ==== Sys2Proof/Laws/Decode.lean ====
section
/-! SUPPORT. The decoder's fields of an encoded command, and what a step does with each kind of presentation. -/

namespace Sys2Proof

@[simp] theorem cmdOp_cmdWord (t : Target) (op : BitVec 8) : cmdOp (cmdWord t op) = op := by
  revert op; cases t <;> decide

@[simp] theorem cmdTarget_cmdWord (t : Target) (op : BitVec 8) : cmdTarget (cmdWord t op) = t := by
  revert op; cases t <;> decide

@[simp] theorem cmdRsv_cmdWord (t : Target) (op : BitVec 8) : cmdRsv (cmdWord t op) = 0 := by
  revert op; cases t <;> decide

/-- A command word is its target and opcode when its reserved bits are 0. -/
theorem cmdWord_of_fields {cmd : Cmd} (h : cmdRsv cmd = 0) : cmdWord (cmdTarget cmd) (cmdOp cmd) = cmd := by
  have h9 : ∀ i, i < 7 → cmd.getLsbD (9 + i) = false := fun i hi => by
    simpa [cmdRsv, hi] using congrArg (fun b : BitVec 7 => b.getLsbD i) h
  have h8 : (cmdTarget cmd).bit.getLsbD 0 = cmd.getLsbD 8 := by
    unfold cmdTarget
    split <;> rename_i hb
    · simpa [Target.bit] using (congrArg (fun b : BitVec 1 => b.getLsbD 0) hb).symm
    · by_contra hc
      refine hb ?_
      ext i hi
      obtain rfl : i = 0 := by omega
      simpa [Target.bit] using hc
  refine BitVec.eq_of_getLsbD_eq fun i hi => ?_
  simp only [cmdWord, BitVec.getLsbD_append, cmdOp, BitVec.getLsbD_extractLsb']
  by_cases h1 : i < 8
  · simp [h1]
  · simp only [h1, if_false]
    by_cases h2 : i - 8 < 1
    · obtain rfl : i = 8 := by omega
      simpa using h8
    · simp only [h2, if_false]
      have := h9 (i - 9) (by omega)
      rw [show 9 + (i - 9) = i by omega] at this
      simp [this]

/-- A low slice of a zero-extended operand is the operand. -/
theorem argSlice_setWidth {n : Nat} (v : BitVec n) (h : n ≤ 64) : argSlice (v.setWidth 64) 0 n = v := by
  refine BitVec.eq_of_getLsbD_eq fun i hi => ?_
  simp [argSlice, hi, show i < 64 by omega]

/-- A low slice of ARG, zero-extended again, is ARG with the other bits cleared. -/
theorem setWidth_argSlice (arg : Word) (n : Nat) :
    (argSlice arg 0 n).setWidth 64 = arg &&& BitVec.ofNat 64 (2 ^ n - 1) := by
  refine BitVec.eq_of_getLsbD_eq fun i hi => ?_
  simp only [argSlice, BitVec.getLsbD_setWidth, BitVec.getLsbD_extractLsb', BitVec.getLsbD_and, BitVec.getLsbD_ofNat,
    Nat.testBit_two_pow_sub_one, hi, decide_true, Bool.true_and, Nat.zero_add]
  exact Bool.and_comm _ _

/-- RESET's two operands as one 16-bit slice (30_encoding.md R76). -/
theorem argSlice_append (arg : Word) : (argSlice arg 8 8 ++ argSlice arg 0 8 : BitVec 16) = argSlice arg 0 16 := by
  refine BitVec.eq_of_getLsbD_eq fun i hi => ?_
  simp only [argSlice, BitVec.getLsbD_append, BitVec.getLsbD_extractLsb']
  by_cases h : i < 8
  · simp [h, hi]
  · simp [h, hi, show i - 8 < 8 by omega, show 8 + (i - 8) = i by omega]

/-- RESET's operands taken back from its operand word. -/
theorem argSlice_reset (c d : Byte) :
    argSlice ((d ++ c : BitVec 16).setWidth 64) 0 8 = c ∧ argSlice ((d ++ c : BitVec 16).setWidth 64) 8 8 = d := by
  constructor <;> refine BitVec.eq_of_getLsbD_eq fun i hi => ?_
  · simp only [argSlice, BitVec.getLsbD_extractLsb', BitVec.getLsbD_setWidth, BitVec.getLsbD_append]
    simp [hi, show i < 64 by omega]
  · simp only [argSlice, BitVec.getLsbD_extractLsb', BitVec.getLsbD_setWidth, BitVec.getLsbD_append]
    simp [hi, show 8 + i < 64 by omega]

/-- The decoder on a command word with its reserved bits 0. -/
theorem decode_cmdWord (t : Target) (op : BitVec 8) (arg : Word) {i : Instr} (h : decodeOp op t arg = some i)
    (hw : WellFormed i) : decode (cmdWord t op) arg = .ok i := by
  simp only [decode, cmdRsv_cmdWord, if_true, cmdOp_cmdWord, cmdTarget_cmdWord, h]
  simp only [hw, if_true]

/-- What the decoder accepts has reserved bits 0, is what the opcode map gives, and is well formed. -/
theorem decode_ok {cmd : Cmd} {arg : Word} {i : Instr} (h : decode cmd arg = .ok i) :
    cmdRsv cmd = 0 ∧ decodeOp (cmdOp cmd) (cmdTarget cmd) arg = some i ∧ WellFormed i := by
  unfold decode at h
  split at h
  · rename_i hr
    split at h
    · rename_i j hj
      split at h
      · rename_i hw; cases h; exact ⟨hr, hj, hw⟩
      · cases h
    · cases h
  · cases h

/-- `FEED b` as the stream port presents it (30_encoding.md R70). -/
theorem decode_stream (b : Byte) : decode 0x0060 (b.setWidth 64) = .ok (.feed .tx b) := by
  have h := decode_cmdWord .tx 0x60 (b.setWidth 64) (i := .feed .tx b)
    (congrArg (fun x => some (Instr.feed .tx x)) (argSlice_setWidth b (by omega))) rfl
  exact h

namespace Machine

theorem step_of_host {s : State} {cmd : Cmd} {arg : Word} {rest : List Input} (h : s.input = .host cmd arg :: rest) :
    step s = transact cmd arg { s with input := rest } := by
  simp only [step, takeInput, h]

theorem step_of_stream {s : State} {b : Byte} {rest : List Input} (h : s.input = .stream b :: rest) :
    step s = streamByte b { s with input := rest } := by
  simp only [step, takeInput, h]

theorem step_of_both {s : State} {b : Byte} {cmd : Cmd} {arg : Word} {rest : List Input}
    (h : s.input = .both b cmd arg :: rest) : step s = streamByte b { s with input := .host cmd arg :: rest } := by
  simp only [step, takeInput, h]

theorem step_of_rst {s : State} {rest : List Input} (h : s.input = .rst :: rest) :
    step s = .next { State.reset with input := rest } := by
  simp only [step, takeInput, h, hardwareReset]

theorem step_of_nil {s : State} (h : s.input = []) : step s = .next s := by
  simp only [step, takeInput, h]

/-- A stream byte runs the deframer's step and then drives `frame_done`. -/
theorem streamByte_eq (b : Byte) (s : State) :
    streamByte b s = match deframerStep b s with
      | .next s' => .next { s' with frameDone := s'.resp.done }
      | .fault r => .fault r
      | .refused r => .refused r := by
  unfold streamByte transact
  rw [decode_stream]
  rfl

end Machine

end Sys2Proof
end

