-- ==== Sys2Proof/Laws/Memory.lean ====
section
/-! SUPPORT. The laws of a frame buffer's bytes: what a write leaves everywhere, that every operation keeps the canonical form, that
canonical buffers with equal bytes are equal, and the little-endian accesses byte by byte. -/

namespace Sys2Proof.Machine

@[simp] theorem Memory.read_nil (a : Nat) : Memory.read [] a = unlisted a := rfl

theorem Memory.wfFrom_cons {k : Nat} {b : Byte} {rest : Memory} {lo : Nat} :
    Memory.wfFrom ((k, b) :: rest) lo = true ↔
      lo ≤ k ∧ k < 255 ∧ b ≠ unlisted k ∧ Memory.wfFrom rest (k + 1) = true := by
  simp only [Memory.wfFrom, Bool.and_eq_true, decide_eq_true_eq, and_assoc]
  rfl

/-- A canonical list may start anywhere at or below its first offset. -/
theorem Memory.wfFrom_mono {m : Memory} {lo lo' : Nat} (h : Memory.wfFrom m lo = true) (hle : lo' ≤ lo) :
    Memory.wfFrom m lo' = true := by
  cases m with
  | nil => rfl
  | cons c rest =>
    obtain ⟨k, b⟩ := c
    rw [Memory.wfFrom_cons] at h ⊢
    exact ⟨by omega, h.2⟩

/-- Offsets below a canonical list's start read as unlisted. -/
theorem Memory.read_below {m : Memory} {lo a : Nat} (h : Memory.wfFrom m lo = true) (ha : a < lo) :
    Memory.read m a = unlisted a := by
  induction m generalizing lo with
  | nil => rfl
  | cons c rest ih =>
    obtain ⟨k, b⟩ := c
    rw [Memory.wfFrom_cons] at h
    have hk : k ≠ a := by omega
    simpa [Memory.read, hk] using ih h.2.2.2 (by omega)

/-- A write leaves every other offset alone. -/
theorem Memory.read_write_other (m : Memory) {a a' : Nat} (b : Byte) (h : a' ≠ a) :
    Memory.read (Memory.write m a b) a' = Memory.read m a' := by
  induction m with
  | nil =>
    simp only [Memory.write]
    split
    · rfl
    · simp [Memory.read, Ne.symm h]
  | cons c rest ih =>
    obtain ⟨k, d⟩ := c
    simp only [Memory.write]
    split
    · split
      · rfl
      · simp [Memory.read, Ne.symm h]
    · split
      · rename_i hak
        subst hak
        split <;> simp [Memory.read, Ne.symm h]
      · simp only [Memory.read, ih]

theorem Memory.read_write_from {m : Memory} {lo a : Nat} {b : Byte} (h : Memory.wfFrom m lo = true) :
    Memory.read (Memory.write m a b) a = b := by
  induction m generalizing lo with
  | nil =>
    simp only [Memory.write]
    split
    · rename_i hb; simp [hb]
    · simp [Memory.read]
  | cons c rest ih =>
    obtain ⟨k, d⟩ := c
    have hc := Memory.wfFrom_cons.1 h
    simp only [Memory.write]
    split
    · rename_i hak
      split
      · rename_i hb
        have hk : k ≠ a := by omega
        simp only [Memory.read, hk, if_false]
        rw [Memory.read_below hc.2.2.2 (by omega), hb]
      · simp [Memory.read]
    · split
      · rename_i hak
        subst hak
        split
        · rename_i hb
          rw [Memory.read_below hc.2.2.2 (by omega), hb]
        · simp [Memory.read]
      · rename_i hk
        simp only [Memory.read, Ne.symm hk, if_false]
        exact ih hc.2.2.2

/-- A canonical buffer reads back what was written. -/
theorem Memory.read_write_self {m : Memory} {a : Nat} {b : Byte} (h : Memory.wf m = true) :
    Memory.read (Memory.write m a b) a = b := Memory.read_write_from h

theorem Memory.wfFrom_write {m : Memory} {lo a : Nat} {b : Byte} (h : Memory.wfFrom m lo = true) (hlo : lo ≤ a)
    (ha : a < 255) : Memory.wfFrom (Memory.write m a b) lo = true := by
  induction m generalizing lo with
  | nil =>
    simp only [Memory.write]
    split
    · rfl
    · rename_i hb
      exact Memory.wfFrom_cons.2 ⟨hlo, ha, hb, rfl⟩
  | cons c rest ih =>
    obtain ⟨k, d⟩ := c
    have hc := Memory.wfFrom_cons.1 h
    simp only [Memory.write]
    split
    · split
      · exact h
      · rename_i hak hb
        exact Memory.wfFrom_cons.2 ⟨hlo, ha, hb, Memory.wfFrom_cons.2 ⟨hak, hc.2⟩⟩
    · split
      · rename_i hak
        subst hak
        split
        · exact Memory.wfFrom_mono hc.2.2.2 (by omega)
        · rename_i hb
          exact Memory.wfFrom_cons.2 ⟨hlo, ha, hb, hc.2.2.2⟩
      · exact Memory.wfFrom_cons.2 ⟨hc.1, hc.2.1, hc.2.2.1, ih hc.2.2.2 (by omega)⟩

/-- A write to an offset that exists keeps the canonical form. -/
theorem Memory.wf_write {m : Memory} {a : Nat} {b : Byte} (h : Memory.wf m = true) (ha : a < 255) :
    Memory.wf (Memory.write m a b) = true := Memory.wfFrom_write h (Nat.zero_le a) ha

theorem Memory.eq_of_read_eq_from {m m' : Memory} {lo lo' : Nat} (h : Memory.wfFrom m lo = true)
    (h' : Memory.wfFrom m' lo' = true) (hr : ∀ a, Memory.read m a = Memory.read m' a) : m = m' := by
  induction m generalizing lo lo' m' with
  | nil =>
    cases m' with
    | nil => rfl
    | cons c rest =>
      obtain ⟨k, b⟩ := c
      have hc := Memory.wfFrom_cons.1 h'
      exact absurd (by simpa [Memory.read] using (hr k).symm) hc.2.2.1
  | cons c rest ih =>
    obtain ⟨k, b⟩ := c
    have hc := Memory.wfFrom_cons.1 h
    cases m' with
    | nil => exact absurd (by simpa [Memory.read] using hr k) hc.2.2.1
    | cons c' rest' =>
      obtain ⟨k', b'⟩ := c'
      have hc' := Memory.wfFrom_cons.1 h'
      have hkk : k = k' := by
        rcases Nat.lt_trichotomy k k' with hlt | heq | hgt
        · have hne : k' ≠ k := by omega
          have h1 := hr k
          simp only [Memory.read, hne, if_true, if_false] at h1
          exact absurd (h1.trans (Memory.read_below hc'.2.2.2 (by omega))) hc.2.2.1
        · exact heq
        · have hne : k ≠ k' := by omega
          have h1 := hr k'
          simp only [Memory.read, hne, if_true, if_false] at h1
          exact absurd (h1.symm.trans (Memory.read_below hc.2.2.2 (by omega))) hc'.2.2.1
      subst hkk
      have hb : b = b' := by simpa [Memory.read] using hr k
      subst hb
      have hrest : rest = rest' := by
        refine ih hc.2.2.2 hc'.2.2.2 fun a => ?_
        by_cases ha : k = a
        · subst ha
          rw [Memory.read_below hc.2.2.2 (by omega), Memory.read_below hc'.2.2.2 (by omega)]
        · simpa [Memory.read, ha] using hr a
      rw [hrest]

/-- Canonical buffers that read the same everywhere are the same list. -/
theorem Memory.eq_of_read_eq {m m' : Memory} (h : Memory.wf m = true) (h' : Memory.wf m' = true)
    (hr : ∀ a, Memory.read m a = Memory.read m' a) : m = m' := Memory.eq_of_read_eq_from h h' hr

/-- A little-endian store leaves every offset outside its bytes alone. -/
theorem Memory.read_writeLE_other {n : Nat} {a a' : Nat} (m : Memory) (v : Nat) (h : a' < a ∨ a + n ≤ a') :
    Memory.read (Memory.writeLE m a n v) a' = Memory.read m a' := by
  induction n generalizing m a v with
  | zero => rfl
  | succ n ih =>
    rw [Memory.writeLE, ih _ _ (by omega), Memory.read_write_other _ _ (by omega)]

/-- A little-endian store inside the buffer keeps the canonical form. -/
theorem Memory.wf_writeLE {n : Nat} {m : Memory} {a v : Nat} (h : Memory.wf m = true) (ha : a + n ≤ 255) :
    Memory.wf (Memory.writeLE m a n v) = true := by
  induction n generalizing m a v with
  | zero => exact h
  | succ n ih => exact ih (Memory.wf_write h (by omega)) (by omega)

/-- A little-endian store puts byte `i` of the value at offset `a + i`. -/
theorem Memory.read_writeLE_byte {n : Nat} {m : Memory} {a v i : Nat} (h : Memory.wf m = true) (ha : a + n ≤ 255)
    (hi : i < n) : Memory.read (Memory.writeLE m a n v) (a + i) = BitVec.ofNat 8 (v >>> (8 * i)) := by
  induction n generalizing m a v i with
  | zero => omega
  | succ n ih =>
    cases i with
    | zero =>
      rw [Memory.writeLE, Memory.read_writeLE_other _ _ (by omega)]
      simpa using Memory.read_write_self h
    | succ i =>
      have h1 := ih (m := Memory.write m a (BitVec.ofNat 8 v)) (a := a + 1) (v := v / 256)
        (Memory.wf_write h (by omega)) (by omega) (i := i) (by omega)
      rw [Memory.writeLE, show a + (i + 1) = a + 1 + i by omega, h1,
        show 8 * (i + 1) = 8 + 8 * i by ring, Nat.shiftRight_add, Nat.shiftRight_eq_div_pow v 8]

/-- The value of a field depends on its own bytes only. -/
theorem Memory.readLE_congr {n : Nat} {m m' : Memory} {a a' : Nat}
    (h : ∀ i, i < n → Memory.read m (a + i) = Memory.read m' (a' + i)) :
    Memory.readLE m a n = Memory.readLE m' a' n := by
  induction n generalizing a a' with
  | zero => rfl
  | succ n ih =>
    have h0 := h 0 (by omega)
    simp only [Nat.add_zero] at h0
    rw [Memory.readLE, Memory.readLE, h0, ih fun i hi => by
      have := h (i + 1) (by omega)
      rwa [show a + (i + 1) = a + 1 + i by omega, show a' + (i + 1) = a' + 1 + i by omega] at this]

/-- The value of `n` bytes fits in `8n` bits. -/
theorem Memory.readLE_lt (m : Memory) (a n : Nat) : Memory.readLE m a n < 2 ^ (8 * n) := by
  induction n generalizing a with
  | zero => simp [Memory.readLE]
  | succ n ih =>
    have h1 := ih (a + 1)
    have h2 := (Memory.read m a).isLt
    rw [Memory.readLE, show 8 * (n + 1) = 8 * n + 8 by ring, Nat.pow_add]
    omega

/-- A field whose bytes are those of `v` has the value `v`, cut to its width. -/
theorem Memory.readLE_of_bytes {n : Nat} {m : Memory} {a v : Nat}
    (h : ∀ i, i < n → Memory.read m (a + i) = BitVec.ofNat 8 (v >>> (8 * i))) :
    Memory.readLE m a n = v % 2 ^ (8 * n) := by
  induction n generalizing a v with
  | zero => simp [Memory.readLE, Nat.mod_one]
  | succ n ih =>
    have h0 := h 0 (by omega)
    simp only [Nat.add_zero, Nat.mul_zero, Nat.shiftRight_zero] at h0
    have h1 := ih (a := a + 1) (v := v / 256) fun i hi => by
      have := h (i + 1) (by omega)
      rwa [show a + (i + 1) = a + 1 + i by omega, show 8 * (i + 1) = 8 + 8 * i by ring, Nat.shiftRight_add,
        Nat.shiftRight_eq_div_pow v 8] at this
    rw [Memory.readLE, h0, h1, show 8 * (n + 1) = 8 + 8 * n by ring, Nat.pow_add, Nat.mod_mul]
    simp

/-- The Horner form of the model is the sum of 20_memory.md R52. -/
theorem Memory.readLE_eq_sum (m : Memory) (a n : Nat) :
    Memory.readLE m a n = ((List.range n).map (fun i => (Memory.read m (a + i)).toNat <<< (8 * i))).sum := by
  induction n generalizing a with
  | zero => rfl
  | succ n ih =>
    rw [Memory.readLE, ih, List.range_succ_eq_map, List.map_cons, List.sum_cons, List.map_map, ← List.sum_map_mul_left]
    congr 1
    refine congrArg List.sum (List.map_congr_left fun i _ => ?_)
    simp only [Function.comp, Nat.shiftLeft_eq, Nat.succ_eq_add_one]
    rw [show a + (i + 1) = a + 1 + i by omega, show 8 * (i + 1) = 8 + 8 * i by ring, Nat.pow_add]
    ring

end Sys2Proof.Machine
end

