-- ==== Sys2Proof/Laws/Ops.lean ====
section
/-! SUPPORT. What each shared operation can do, said once: FrameReset, Append, the reads and the checks around them. -/

namespace Sys2Proof.Machine

/-! ### Frames -/

theorem Fbu.blen_eq (f : Fbu) : f.blen = 4 + f.lenByte.toNat := rfl

theorem Fbu.four_le_blen (f : Fbu) : 4 ≤ f.blen := by rw [Fbu.blen_eq]; omega

theorem Fbu.Inv.blen_le {f : Fbu} (h : f.Inv) : f.blen ≤ 255 := by
  have h1 : f.lenByte.toNat ≤ 251 := h.2.2.1
  rw [Fbu.blen_eq]; omega

@[simp] theorem Fbu.raw_length (f : Fbu) : f.raw.length = f.blen := by simp [Fbu.raw]

theorem Fbu.raw_getElem? (f : Fbu) {k : Nat} (h : k < f.blen) : f.raw[k]? = some (Memory.read f.buf k) := by
  simp [Fbu.raw, List.getElem?_range h]

/-- The frame is its bytes: two frames of one length with equal bytes are equal. -/
theorem Fbu.raw_eq_iff {f g : Fbu} :
    f.raw = g.raw ↔ f.blen = g.blen ∧ ∀ a, a < f.blen → Memory.read f.buf a = Memory.read g.buf a := by
  constructor
  · intro h
    have hl : f.blen = g.blen := by simpa using congrArg List.length h
    refine ⟨hl, fun a ha => ?_⟩
    have := congrArg (fun l : List Byte => l[a]?) h
    simpa [Fbu.raw_getElem? f ha, Fbu.raw_getElem? g (hl ▸ ha)] using this
  · rintro ⟨hl, hb⟩
    simp only [Fbu.raw, hl]
    exact List.map_congr_left fun a ha => hb a (by rw [hl]; simpa using ha)

/-- The header of a frame that starts with the marker. -/
theorem Fbu.raw_of_header {f : Fbu} {b1 b2 : Byte} (h0 : Memory.read f.buf 0 = 0xFF) (h1 : Memory.read f.buf 1 = b1)
    (h2 : Memory.read f.buf 2 = b2) (h3 : f.lenByte = 0) : f.raw = [0xFF, b1, b2, 0] := by
  have hb : f.blen = 4 := by rw [Fbu.blen_eq, h3]; rfl
  have h3' : Memory.read f.buf 3 = 0 := h3
  simp [Fbu.raw, hb, List.range_succ, h0, h1, h2, h3']

/-! ### FrameReset (40_frame_control.md R100) -/

theorem Fbu.frameReset_wf {f : Fbu} (h : Memory.wf f.buf = true) (c d : Byte) :
    Memory.wf (f.frameReset c d).buf = true :=
  Memory.wf_write (Memory.wf_write (Memory.wf_write (Memory.wf_write h (by omega)) (by omega)) (by omega)) (by omega)

theorem Fbu.frameReset_read {f : Fbu} (h : Memory.wf f.buf = true) (c d : Byte) (a : Nat) :
    Memory.read (f.frameReset c d).buf a =
      if a = 0 then 0xFF else if a = 1 then d else if a = 2 then c else if a = 3 then 0 else Memory.read f.buf a := by
  have w0 := Memory.wf_write (a := 0) (b := Config.startMarker) h (by omega)
  have w1 := Memory.wf_write (a := 1) (b := d) w0 (by omega)
  have w2 := Memory.wf_write (a := 2) (b := c) w1 (by omega)
  simp only [Fbu.frameReset]
  by_cases h3 : a = 3
  · subst h3; simpa using Memory.read_write_self w2
  rw [Memory.read_write_other _ _ h3]
  by_cases h2 : a = 2
  · subst h2; simpa using Memory.read_write_self w1
  rw [Memory.read_write_other _ _ h2]
  by_cases h1 : a = 1
  · subst h1; simpa using Memory.read_write_self w0
  rw [Memory.read_write_other _ _ h1]
  by_cases h0 : a = 0
  · subst h0; simpa [Config.startMarker] using Memory.read_write_self (b := Config.startMarker) h
  rw [Memory.read_write_other _ _ h0]
  simp [h0, h1, h2, h3]

theorem Fbu.frameReset_lenByte {f : Fbu} (h : Memory.wf f.buf = true) (c d : Byte) : (f.frameReset c d).lenByte = 0 := by
  simp [Fbu.lenByte, Fbu.frameReset_read h]

theorem Fbu.frameReset_blen {f : Fbu} (h : Memory.wf f.buf = true) (c d : Byte) : (f.frameReset c d).blen = 4 := by
  rw [Fbu.blen_eq, Fbu.frameReset_lenByte h]; rfl

@[simp] theorem Fbu.frameReset_cur (f : Fbu) (c d : Byte) : (f.frameReset c d).cur = 4 := rfl

theorem Fbu.frameReset_inv {f : Fbu} (h : Memory.wf f.buf = true) (c d : Byte) : (f.frameReset c d).Inv := by
  refine ⟨Fbu.frameReset_wf h c d, ?_, ?_, ?_, ?_⟩
  · simp [Fbu.frameReset_read h, Config.startMarker]
  · simp [Fbu.frameReset_lenByte h]
  · simp
  · simp [Fbu.frameReset_blen h]

/-! ### Append (41_writes.md R110) -/

/-- What an append that fits leaves: the bytes at `BLEN .. BLEN+w-1`, the longer length, every other byte and the cursor. -/
theorem Fbu.append?_spec {f : Fbu} {w v : Nat} (h : Memory.wf f.buf = true) (hw : f.blen + w ≤ 255) :
    ∃ g, f.append? w v = some g ∧ Memory.wf g.buf = true ∧ g.cur = f.cur ∧
      g.lenByte.toNat = f.lenByte.toNat + w ∧
      (∀ i, i < w → Memory.read g.buf (f.blen + i) = BitVec.ofNat 8 (v >>> (8 * i))) ∧
      (∀ a, a ≠ 3 → (a < f.blen ∨ f.blen + w ≤ a) → Memory.read g.buf a = Memory.read f.buf a) := by
  have hb := f.blen_eq
  have hwf : Memory.wf (Memory.writeLE f.buf f.blen w v) = true := Memory.wf_writeLE h hw
  refine ⟨{ f with buf := Memory.write (Memory.writeLE f.buf f.blen w v) 3 (f.lenByte + BitVec.ofNat 8 w) }, ?_,
    Memory.wf_write hwf (by omega), rfl, ?_, fun i hi => ?_, fun a h3 ha => ?_⟩
  · simp [Fbu.append?, Nat.not_lt.2 hw]
  · have h3 : Memory.read (Memory.write (Memory.writeLE f.buf f.blen w v) 3 (f.lenByte + BitVec.ofNat 8 w)) 3 =
        f.lenByte + BitVec.ofNat 8 w := Memory.read_write_self hwf
    simp only [Fbu.lenByte] at h3 hb ⊢
    rw [h3, BitVec.toNat_add, BitVec.toNat_ofNat]
    omega
  · rw [Memory.read_write_other _ _ (by omega), Memory.read_writeLE_byte h hw hi]
  · rw [Memory.read_write_other _ _ h3, Memory.read_writeLE_other _ _ ha]

theorem Fbu.append?_none {f : Fbu} {w v : Nat} (hw : 255 < f.blen + w) : f.append? w v = none := by
  simp [Fbu.append?, hw]

theorem Fbu.append?_some_le {f g : Fbu} {w v : Nat} (h : f.append? w v = some g) : f.blen + w ≤ 255 := by
  by_contra hn
  rw [Fbu.append?_none (by omega)] at h
  cases h

theorem Fbu.append?_inv {f g : Fbu} {w v : Nat} (h : f.Inv) (hg : f.append? w v = some g) : g.Inv := by
  have hw := Fbu.append?_some_le hg
  obtain ⟨g', hg', hwf, hcur, hlen, -, hrest⟩ := Fbu.append?_spec (v := v) h.1 hw
  rw [hg] at hg'
  cases hg'
  have h4 := f.blen_eq
  have h5 := g.blen_eq
  have hc : f.cur.toNat ≤ f.blen := h.2.2.2.2
  refine ⟨hwf, ?_, ?_, ?_, ?_⟩
  · rw [hrest 0 (by omega) (.inl (by omega))]; exact h.2.1
  · simp only [payloadMax_eq]; omega
  · rw [hcur]; exact h.2.2.2.1
  · rw [hcur]; omega

/-! ### The checks and the reads -/

@[simp] theorem onTxOnly_tx (effect : State → Host.Outcome State Fault Refusal) (s : State) :
    onTxOnly .tx effect s = effect s := rfl

@[simp] theorem onTxOnly_rx (effect : State → Host.Outcome State Fault Refusal) (s : State) :
    onTxOnly .rx effect s = .next (raise .illegalOp s) := rfl

theorem append_cases {t : Target} {w v : Nat} {s s' : State} (h : append t w v s = .next s') :
    s' = raise .oversizeWrite s ∨
      ∃ f, (s.fbu t).append? w v = some f ∧ s' = respond .ok 0 false (s.setFbu t f) := by
  unfold append at h
  split at h
  · cases h; exact .inl rfl
  · rename_i f hf; cases h; exact .inr ⟨f, hf, rfl⟩

theorem seqRead_next {t : Target} {w : Nat} {form : Nat → Word} {s : State}
    (h : (s.fbu t).cur.toNat + w ≤ (s.fbu t).blen) :
    seqRead t w form s = .next (respond .ok (form (Memory.readLE (s.fbu t).buf (s.fbu t).cur.toNat w)) false
      (s.setFbu t { s.fbu t with cur := (s.fbu t).cur + BitVec.ofNat 8 w })) := by
  simp only [seqRead, Nat.not_lt.2 h, if_false]

theorem seqRead_rejected {t : Target} {w : Nat} {form : Nat → Word} {s : State}
    (h : (s.fbu t).blen < (s.fbu t).cur.toNat + w) : seqRead t w form s = .next (raise .outOfRangeRead s) := by
  simp [seqRead, h]

theorem seqRead_cases {t : Target} {w : Nat} {form : Nat → Word} {s s' : State} (h : seqRead t w form s = .next s') :
    s' = raise .outOfRangeRead s ∨
      ((s.fbu t).cur.toNat + w ≤ (s.fbu t).blen ∧
        s' = respond .ok (form (Memory.readLE (s.fbu t).buf (s.fbu t).cur.toNat w)) false
          (s.setFbu t { s.fbu t with cur := (s.fbu t).cur + BitVec.ofNat 8 w })) := by
  simp only [seqRead] at h
  split at h
  · cases h; exact .inl rfl
  · cases h; exact .inr ⟨by omega, rfl⟩

theorem offRead_next {t : Target} {off w : Nat} {form : Nat → Word} {s : State} (h : off + w ≤ (s.fbu t).blen) :
    offRead t off w form s = .next (respond .ok (form (Memory.readLE (s.fbu t).buf off w)) false s) := by
  simp only [offRead, Nat.not_lt.2 h, if_false]

theorem offRead_rejected {t : Target} {off w : Nat} {form : Nat → Word} {s : State}
    (h : (s.fbu t).blen < off + w) : offRead t off w form s = .next (raise .outOfRangeRead s) := by
  simp [offRead, h]

theorem offRead_cases {t : Target} {off w : Nat} {form : Nat → Word} {s s' : State}
    (h : offRead t off w form s = .next s') :
    s' = raise .outOfRangeRead s ∨
      (off + w ≤ (s.fbu t).blen ∧
        s' = respond .ok (form (Memory.readLE (s.fbu t).buf off w)) false s) := by
  simp only [offRead] at h
  split at h
  · cases h; exact .inl rfl
  · cases h; exact .inr ⟨by omega, rfl⟩

theorem b64_next {t : Target} {k : BitVec 16} {s : State} (h : k.toNat < b64Length (s.fbu t).blen) :
    execRdB64 t k s = .next (respond .ok (resultByte ((s.fbu t).b64At k.toNat)) false s) := by
  simp only [execRdB64, Nat.not_le.2 h, if_false]

theorem b64_rejected {t : Target} {k : BitVec 16} {s : State} (h : b64Length (s.fbu t).blen ≤ k.toNat) :
    execRdB64 t k s = .next (raise .outOfRangeRead s) := by
  simp [execRdB64, h]

theorem b64_cases {t : Target} {k : BitVec 16} {s s' : State} (h : execRdB64 t k s = .next s') :
    s' = raise .outOfRangeRead s ∨
      (k.toNat < b64Length (s.fbu t).blen ∧
        s' = respond .ok (resultByte ((s.fbu t).b64At k.toNat)) false s) := by
  simp only [execRdB64] at h
  split at h
  · cases h; exact .inl rfl
  · cases h; exact .inr ⟨by omega, rfl⟩

/-! ### FEED (44_deframer.md R181 to R185) -/

/-- Everything a FEED can do, one case per arm of the state table. -/
theorem deframerStep_cases {b : Byte} {s s' : State} (h : deframerStep b s = .next s') :
    (s.dfr.state = .start ∧ b = 0xFF ∧ s' = respond .ok 0 false { s with dfr := { s.dfr with state := .device } }) ∨
      (s.dfr.state = .start ∧ b ≠ 0xFF ∧ s' = respond .ok 0 false s) ∨
      (s.dfr.state = .device ∧
        s' = respond .ok 0 false { s with dfr := { s.dfr with capDev := b, state := .command } }) ∨
      (s.dfr.state = .command ∧
        s' = respond .ok 0 false { s with dfr := { s.dfr with capCmd := b, state := .length } }) ∨
      (s.dfr.state = .length ∧ b = 0 ∧ s' = respond .ok 1 true { s with
        rx := s.rx.frameReset s.dfr.capCmd s.dfr.capDev, dfr := { s.dfr with capLen := b, state := .start } }) ∨
      (s.dfr.state = .length ∧ b ≠ 0 ∧ b.toNat ≤ 251 ∧ s' = respond .ok 0 false { s with
        rx := s.rx.frameReset s.dfr.capCmd s.dfr.capDev, dfr := { s.dfr with capLen := b, state := .data } }) ∨
      (s.dfr.state = .length ∧ 251 < b.toNat ∧ s' = respond .ok 0 false { s with
        rx := s.rx.frameReset s.dfr.capCmd s.dfr.capDev, dfr := { s.dfr with capLen := b, state := .start },
        diag := s.diag ||| 0x08 }) ∨
      (s.dfr.state = .data ∧ 255 < s.rx.blen + 1 ∧ s' = raise .oversizeWrite s) ∨
      (∃ f, s.dfr.state = .data ∧ s.rx.append? 1 b.toNat = some f ∧ f.lenByte = s.dfr.capLen ∧
        s' = respond .ok 1 true { s with rx := f, dfr := { s.dfr with state := .start } }) ∨
      (∃ f, s.dfr.state = .data ∧ s.rx.append? 1 b.toNat = some f ∧ f.lenByte ≠ s.dfr.capLen ∧
        s' = respond .ok 0 false { s with rx := f }) := by
  unfold deframerStep at h
  split at h <;> rename_i hs
  · unfold feedStart at h
    split at h <;> rename_i hb <;> cases h
    · exact .inl ⟨hs, hb, rfl⟩
    · exact .inr (.inl ⟨hs, hb, rfl⟩)
  · cases h; exact .inr (.inr (.inl ⟨hs, rfl⟩))
  · cases h; exact .inr (.inr (.inr (.inl ⟨hs, rfl⟩)))
  · simp only [feedLength] at h
    split at h
    · rename_i hb; cases h; exact .inr (.inr (.inr (.inr (.inl ⟨hs, hb, rfl⟩))))
    · rename_i hb
      split at h
      · rename_i hle; cases h; exact .inr (.inr (.inr (.inr (.inr (.inl ⟨hs, hb, hle, rfl⟩)))))
      · rename_i hle; cases h
        exact .inr (.inr (.inr (.inr (.inr (.inr (.inl ⟨hs, Nat.lt_of_not_le hle, rfl⟩))))))
  · unfold feedData at h
    split at h
    · rename_i hn
      have : 255 < s.rx.blen + 1 := by
        by_contra hlt
        obtain ⟨g, hg⟩ : ∃ g, s.rx.append? 1 b.toNat = some g := by
          simp only [Fbu.append?, frameMax_eq, hlt, if_false, Option.some.injEq, exists_eq']
        rw [hg] at hn
        cases hn
      cases h
      exact .inr (.inr (.inr (.inr (.inr (.inr (.inr (.inl ⟨hs, this, rfl⟩)))))))
    · rename_i f hf
      split at h
      · rename_i hl; cases h
        exact .inr (.inr (.inr (.inr (.inr (.inr (.inr (.inr (.inl ⟨f, hs, hf, hl, rfl⟩))))))))
      · rename_i hl; cases h
        exact .inr (.inr (.inr (.inr (.inr (.inr (.inr (.inr (.inr ⟨f, hs, hf, hl, rfl⟩))))))))

/-- A FEED always answers a next state, in every state. -/
theorem deframerStep_proceeds (b : Byte) (s : State) : Proceeds (deframerStep b s) := by
  unfold deframerStep
  split
  · unfold feedStart; split <;> exact ⟨_, rfl⟩
  · exact ⟨_, rfl⟩
  · exact ⟨_, rfl⟩
  · simp only [feedLength]
    split
    · exact ⟨_, rfl⟩
    · split <;> exact ⟨_, rfl⟩
  · unfold feedData
    split
    · exact ⟨_, rfl⟩
    · split <;> exact ⟨_, rfl⟩

end Sys2Proof.Machine
end

