-- ==== Sys2Proof/Laws/Exec.lean ====
section
/-! SUPPORT. What one command can do, said once, and that it always goes on. -/

namespace Sys2Proof.Machine

/-- Everything a command can do when it answers a next state. -/
inductive CommandEffect (i : Instr) (s : State) : State → Prop where
  /-- an error: OversizeWrite, OutOfRangeRead or IllegalOp -/
  | raised (k : ErrorKind) (hk : k = .oversizeWrite ∨ k = .outOfRangeRead ∨ k = .illegalOp) :
      CommandEffect i s (raise k s)
  /-- a result, and nothing changed but the outputs -/
  | answered (v : Word) : CommandEffect i s (respond .ok v false s)
  | reset (c d : Byte) (hi : i = .reset .tx c d) :
      CommandEffect i s (respond .ok 0 false { s with tx := s.tx.frameReset c d })
  | wrote (w v : Nat) (f : Fbu) (hi : writeField i = some (w, v)) (hf : s.tx.append? w v = some f) :
      CommandEffect i s (respond .ok 0 false { s with tx := f })
  | seqRead (t : Target) (w : Nat) (v : Word) (hi : SeqReads t i)
      (hcur : (s.fbu t).cur.toNat + w ≤ (s.fbu t).blen) :
      CommandEffect i s
        (respond .ok v false (s.setFbu t { s.fbu t with cur := (s.fbu t).cur + BitVec.ofNat 8 w }))
  | fed (b : Byte) (s' : State) (hi : i = .feed .tx b) (h : deframerStep b s = .next s') : CommandEffect i s s'
  | cleared (m : BitVec 4) (hi : i = .clrDiag .tx m) :
      CommandEffect i s (respond .ok 0 false { s with diag := diagClear m s.diag })

/-- A command that answers a next state has one of the effects above. -/
theorem exec_effect {i : Instr} {s s' : State} (h : exec i s = .next s') : CommandEffect i s s' := by
  have illegal : ∀ {x : State}, Host.Outcome.next (ρ := Refusal) (φ := Fault) (raise .illegalOp s) = .next x →
      CommandEffect i s x := by
    intro x hx; cases hx; exact .raised _ (.inr (.inr rfl))
  have write : ∀ {w v : Nat}, writeField i = some (w, v) → append .tx w v s = .next s' → CommandEffect i s s' := by
    intro w v hi ha
    rcases append_cases ha with rfl | ⟨f, hf, rfl⟩
    · exact .raised _ (.inl rfl)
    · exact .wrote w v f hi hf
  have seq : ∀ {t : Target} {w : Nat} {form : Nat → Word}, SeqReads t i → Machine.seqRead t w form s = .next s' →
      CommandEffect i s s' := by
    intro t w form hi ha
    rcases seqRead_cases ha with rfl | ⟨h1, rfl⟩
    · exact .raised _ (.inr (.inl rfl))
    · exact .seqRead t w _ hi h1
  have off : ∀ {t : Target} {o w : Nat} {form : Nat → Word}, offRead t o w form s = .next s' →
      CommandEffect i s s' := by
    intro t o w form ha
    rcases offRead_cases ha with rfl | ⟨-, rfl⟩
    · exact .raised _ (.inr (.inl rfl))
    · exact .answered _
  cases i with
  | reset t c d =>
    cases t
    · cases h; exact .reset c d rfl
    · exact illegal h
  | wrU8 t v | wrU16 t v | wrU32 t v | wrI8 t v | wrI16 t v | wrI32 t v | wrF32 t v | wrF64 t v =>
    cases t
    · exact write rfl h
    · exact illegal h
  | rdU8 t | rdU16 t | rdU32 t | rdI8 t | rdI16 t | rdI32 t | rdF32 t | rdF64 t => exact seq (by simp [SeqReads]) h
  | rdU8At t o | rdU32At t o | rdF64At t o => exact off h
  | getDev t | getCmd t | getLen t => cases h; exact .answered _
  | rdB64 t k =>
    rcases b64_cases h with rfl | ⟨-, rfl⟩
    · exact .raised _ (.inr (.inl rfl))
    · exact .answered _
  | feed t b =>
    cases t
    · exact .fed b s' rfl h
    · exact illegal h
  | rdStatus t | rdDiag t =>
    cases t
    · cases h; exact .answered _
    · exact illegal h
  | clrDiag t m =>
    cases t
    · cases h; exact .cleared m rfl
    · exact illegal h

/-- A command answers a next state, in every state (00_scope.md R9). -/
theorem exec_proceeds (i : Instr) (s : State) : Proceeds (exec i s) := by
  have seq : ∀ t w form, Proceeds (seqRead t w form s) := fun t w form => by
    by_cases hc : (s.fbu t).cur.toNat + w ≤ (s.fbu t).blen
    · exact ⟨_, seqRead_next hc⟩
    · exact ⟨_, seqRead_rejected (by omega)⟩
  have off : ∀ t o w form, Proceeds (offRead t o w form s) := fun t o w form => by
    by_cases hc : o + w ≤ (s.fbu t).blen
    · exact ⟨_, offRead_next hc⟩
    · exact ⟨_, offRead_rejected (by omega)⟩
  have app : ∀ t w v, Proceeds (onTxOnly t (append .tx w v) s) := fun t w v => by
    cases t
    · simp only [onTxOnly, append]; split <;> exact ⟨_, rfl⟩
    · exact ⟨_, rfl⟩
  cases i with
  | reset t c d => cases t <;> exact ⟨_, rfl⟩
  | wrU8 t v | wrU16 t v | wrU32 t v | wrI8 t v | wrI16 t v | wrI32 t v | wrF32 t v | wrF64 t v => exact app _ _ _
  | rdU8 t | rdU16 t | rdU32 t | rdI8 t | rdI16 t | rdI32 t | rdF32 t | rdF64 t => exact seq _ _ _
  | rdU8At t o | rdU32At t o | rdF64At t o => exact off _ _ _ _
  | getDev t | getCmd t | getLen t => exact ⟨_, rfl⟩
  | rdB64 t k =>
    by_cases hc : k.toNat < b64Length (s.fbu t).blen
    · exact ⟨_, b64_next hc⟩
    · exact ⟨_, b64_rejected (by omega)⟩
  | feed t b =>
    cases t
    · exact deframerStep_proceeds b s
    · exact ⟨_, rfl⟩
  | rdStatus t | rdDiag t => cases t <;> exact ⟨_, rfl⟩
  | clrDiag t m => cases t <;> exact ⟨_, rfl⟩

end Sys2Proof.Machine
end

