-- ==== Sys2Proof/Laws/PerInstr.lean ====
section
/-! SUPPORT. Statements made for every command as syntax, one lemma per constructor. -/

namespace Sys2Proof.Laws.EncodeFields

/-- The fields of an encoded command word: reserved bits 0, the command's opcode and its target (30_encoding.md R71); and the opcode
is listed where the `t` column of R73 puts it. -/
def Statement (i : Instr) : Prop :=
  cmdRsv (encode i).1 = 0 ∧ cmdOp (encode i).1 = i.opcode ∧ cmdTarget (encode i).1 = i.target ∧
    (if i.txOnly then txOnlyOps else anyTargetOps).contains i.opcode = true

theorem of_listed {i : Instr} (h : (if i.txOnly then txOnlyOps else anyTargetOps).contains i.opcode = true) : Statement i :=
  ⟨cmdRsv_cmdWord _ _, cmdOp_cmdWord _ _, cmdTarget_cmdWord _ _, h⟩

theorem reset (t : Target) (c d : Byte) : Statement (.reset t c d) := of_listed rfl
theorem wrU8 (t : Target) (v : BitVec 8) : Statement (.wrU8 t v) := of_listed rfl
theorem wrU16 (t : Target) (v : BitVec 16) : Statement (.wrU16 t v) := of_listed rfl
theorem wrU32 (t : Target) (v : BitVec 32) : Statement (.wrU32 t v) := of_listed rfl
theorem wrI8 (t : Target) (v : BitVec 8) : Statement (.wrI8 t v) := of_listed rfl
theorem wrI16 (t : Target) (v : BitVec 16) : Statement (.wrI16 t v) := of_listed rfl
theorem wrI32 (t : Target) (v : BitVec 32) : Statement (.wrI32 t v) := of_listed rfl
theorem wrF32 (t : Target) (v : BitVec 32) : Statement (.wrF32 t v) := of_listed rfl
theorem wrF64 (t : Target) (v : BitVec 64) : Statement (.wrF64 t v) := of_listed rfl
theorem rdU8 (t : Target) : Statement (.rdU8 t) := of_listed rfl
theorem rdU16 (t : Target) : Statement (.rdU16 t) := of_listed rfl
theorem rdU32 (t : Target) : Statement (.rdU32 t) := of_listed rfl
theorem rdI8 (t : Target) : Statement (.rdI8 t) := of_listed rfl
theorem rdI16 (t : Target) : Statement (.rdI16 t) := of_listed rfl
theorem rdI32 (t : Target) : Statement (.rdI32 t) := of_listed rfl
theorem rdF32 (t : Target) : Statement (.rdF32 t) := of_listed rfl
theorem rdF64 (t : Target) : Statement (.rdF64 t) := of_listed rfl
theorem rdU8At (t : Target) (off : BitVec 16) : Statement (.rdU8At t off) := of_listed rfl
theorem rdU32At (t : Target) (off : BitVec 16) : Statement (.rdU32At t off) := of_listed rfl
theorem rdF64At (t : Target) (off : BitVec 16) : Statement (.rdF64At t off) := of_listed rfl
theorem getDev (t : Target) : Statement (.getDev t) := of_listed rfl
theorem getCmd (t : Target) : Statement (.getCmd t) := of_listed rfl
theorem getLen (t : Target) : Statement (.getLen t) := of_listed rfl
theorem rdB64 (t : Target) (k : BitVec 16) : Statement (.rdB64 t k) := of_listed rfl
theorem feed (t : Target) (b : Byte) : Statement (.feed t b) := of_listed rfl
theorem rdStatus (t : Target) : Statement (.rdStatus t) := of_listed rfl
theorem rdDiag (t : Target) : Statement (.rdDiag t) := of_listed rfl
theorem clrDiag (t : Target) (m : BitVec 4) : Statement (.clrDiag t m) := of_listed rfl

end Sys2Proof.Laws.EncodeFields
end

