-- ==== Sys2Proof/Laws/Run.lean ====
section
/-! SUPPORT. Frames as lists of bytes, and runs: one step more, a command or a stream byte taken, and what is observed. -/

namespace Sys2Proof.Machine

/-- A block right after reset has canonical buffers. -/
theorem reset_wf (t : Target) : Memory.wf (State.reset.fbu t).buf = true := by cases t <;> rfl

/-- FrameReset leaves the header as the whole frame (40_frame_control.md R100). -/
theorem Fbu.frameReset_raw {f : Fbu} (h : Memory.wf f.buf = true) (c d : Byte) : (f.frameReset c d).raw = [0xFF, d, c, 0] :=
  Fbu.raw_of_header (by simp [Fbu.frameReset_read h]) (by simp [Fbu.frameReset_read h]) (by simp [Fbu.frameReset_read h])
    (Fbu.frameReset_lenByte h c d)

/-- A frame is its four header bytes and then its payload. -/
theorem Fbu.raw_eq_header_payload (f : Fbu) :
    f.raw = [Memory.read f.buf 0, Memory.read f.buf 1, Memory.read f.buf 2, f.lenByte] ++
      (List.range f.lenByte.toNat).map (fun i => Memory.read f.buf (4 + i)) := by
  rw [Fbu.raw, Fbu.blen_eq, List.range_add, List.map_append, List.map_map]
  rfl

/-- A run of one step more, from what the step answers. -/
theorem run_succ {M : Host.Core} {s s' : M.State} (n : Nat) (h : M.step s = .next s') : M.run (n + 1) s = M.run n s' := by
  rw [Host.Core.run.eq_def]
  simp only [h]

/-- The same for this block, with its step by name. -/
theorem core_run_succ {s s' : State} (n : Nat) (h : step s = .next s') :
    Host.Core.run Sys2Proof.core (n + 1) s = Host.Core.run Sys2Proof.core n s' :=
  run_succ (M := Sys2Proof.core) n h

theorem observe_succ {s s' : State} {n : Nat} (h : step s = .next s') :
    observe (n + 1) s = (s'.resp, s'.frameDone) :: observe n s' := by
  rw [observe, h]

/-- A FEED leaves `TX` and the queue alone and drives `frame_done` low. -/
theorem deframerStep_untouched {b : Byte} {s s' : State} (h : deframerStep b s = .next s') :
    s'.tx = s.tx ∧ s'.input = s.input ∧ s'.frameDone = false := by
  rcases deframerStep_cases h with ⟨_, _, rfl⟩ | ⟨_, _, rfl⟩ | ⟨_, rfl⟩ | ⟨_, rfl⟩ | ⟨_, _, rfl⟩ | ⟨_, _, _, rfl⟩ |
    ⟨_, _, rfl⟩ | ⟨_, _, rfl⟩ | ⟨_, _, _, _, rfl⟩ | ⟨_, _, _, _, rfl⟩ <;> exact ⟨rfl, rfl, rfl⟩

theorem streaming_eq_self {s : State} {bs : List Byte} (h : s.input = bs.map .stream) : s.streaming bs = s := by
  cases s
  simp only [State.streaming] at *
  simp [h]

/-- The first of several stream bytes taken: the deframer's step, `frame_done` driven, the other bytes still presented. -/
theorem step_streaming {s s' : State} {b : Byte} {bs : List Byte} (h : deframerStep b (s.streaming bs) = .next s') :
    step (s.streaming (b :: bs)) = .next (({ s' with frameDone := s'.resp.done } : State).streaming bs) := by
  have hin : s'.input = bs.map .stream := (deframerStep_untouched h).2.1
  rw [step_of_stream (s := s.streaming (b :: bs)) rfl, streamByte_eq, 
    streaming_eq_self (s := { s' with frameDone := s'.resp.done }) hin]
  have h' : deframerStep b { s.streaming (b :: bs) with input := bs.map .stream } = .next s' := h
  rw [h']

/-- The header accessors and base64 return a byte zero-extended. -/
theorem resultByte_eq (b : Byte) : resultByte b = BitVec.ofNat 64 b.toNat := by
  simp [resultByte]

/-- A typed write to `TX` is an append of its field. -/
theorem exec_writeField {i : Instr} {w v : Nat} (h : writeField i = some (w, v)) (s : State) :
    exec i s = append .tx w v s := by
  unfold writeField at h
  split at h <;> cases h <;> rfl

end Sys2Proof.Machine
end

