-- ==== Sys2Proof/Tests/Slice0.lean ====
section
/-! SUPPORT. Tests whose expected results are the spec's own (95_test_vectors.md and the worked examples of the rules), and for every
statement with hypotheses a state and operands that meet them. -/

namespace Sys2Proof.Tests

open Sys2Proof.Machine Sys2Proof.Claims

/-! ### Small states -/

/-- A unit whose first bytes are given. -/
def unit (bs : List Byte) (cur : BitVec 8) : Fbu :=
  { buf := (bs.zipIdx).foldl (fun m p => Memory.write m p.2 p.1) [], cur := cur }

/-- The reset state with `TX` replaced. -/
def onTx (bs : List Byte) (cur : BitVec 8) : State := { State.reset with tx := unit bs cur }

/-- The reset state with `RX` replaced. -/
def onRx (bs : List Byte) (cur : BitVec 8) : State := { State.reset with rx := unit bs cur }

/-- The reset state with a `TX` frame of `4 + n` bytes whose payload is all zero. -/
def long (n : Byte) (cur : BitVec 8) : State := { State.reset with tx := { buf := [(3, n)], cur := cur } }

/-- The reset state with the deframer replaced. -/
def onDfr (st : DfrState) (d c n : Byte) (s : State) : State := { s with dfr := ⟨st, d, c, n⟩ }

/-- The response of a command that goes on. -/
def out : Host.Outcome State Fault Refusal → Option (Word × RespCode × Bool)
  | .next s => some (s.resp.rdata, s.resp.code, s.resp.done)
  | _ => none

/-- A view of the state of a command that goes on. -/
def view {α : Type} (f : State → α) : Host.Outcome State Fault Refusal → Option α
  | .next s => some (f s)
  | _ => none

/-- The frame of V22: `RESET 5, 1` and five writes. -/
def v22 (cur : BitVec 8) : State :=
  onTx ([0xFF, 0x01, 0x05, 0x13, 0x80, 0x01, 0x80, 0xFF, 0xFF, 0xFF, 0xFF] ++
    [0x00, 0x00, 0x20, 0xC0, 0x00, 0x00, 0x00, 0x00, 0x00, 0x00, 0xF8, 0x7F]) cur

/-! ### Well-formedness (30_encoding.md R73, R75) -/

theorem test_rx_target_is_ill_formed :
    [Instr.reset .rx 9 3, .wrU8 .rx 0, .wrU16 .rx 1, .wrU32 .rx 0, .wrI8 .rx 0, .wrI16 .rx 0, .wrI32 .rx 0,
      .wrF32 .rx 0, .wrF64 .rx 0, .feed .rx 0xFF, .rdStatus .rx, .rdDiag .rx, .clrDiag .rx 0xF].all
        (fun i => !i.wellFormed) = true := by decide

theorem test_reads_take_either_target :
    [Instr.rdU8 .rx, .rdF64 .rx, .rdU8At .rx 0, .getDev .rx, .rdB64 .rx 0, .rdU8 .tx, .getLen .tx].all
        (fun i => i.wellFormed) = true := by decide

/-- 95_test_vectors.md section 2.8. -/
theorem test_illegal_words :
    [(0x0000 : Cmd), 0x0002, 0x0013, 0x0017, 0x0023, 0x0031, 0x0040, 0x0044, 0x0051, 0x0064, 0x0070, 0x00FF, 0x0110, 0x0160,
      0x0161, 0x0220, 0x021B, 0x8020].all (fun c => !legalCmd c && (decode c 0).toOption.isNone) = true := by decide

/-! ### Decoding: the words of 30_encoding.md R71, R73, R76, as 95_test_vectors.md writes them -/

theorem test_decode_reset : decode 0x0001 0xFFFFFFFFFFFF0102 = .ok (.reset .tx 2 1) := by decide
theorem test_decode_wrU8 : decode 0x0010 0x1FF = .ok (.wrU8 .tx 0xFF) := by decide
theorem test_decode_wrU16 : decode 0x0011 0x1234 = .ok (.wrU16 .tx 0x1234) := by decide
theorem test_decode_wrU32 : decode 0x0012 0x100000001 = .ok (.wrU32 .tx 1) := by decide
theorem test_decode_wrI8 : decode 0x0014 0xFFFFFFFFFFFFFFFF = .ok (.wrI8 .tx 0xFF) := by decide
theorem test_decode_wrI16 : decode 0x0015 0xFFFFFFFFFFFFFFFE = .ok (.wrI16 .tx 0xFFFE) := by decide
theorem test_decode_wrI32 : decode 0x0016 0xFFFFFFFF80000000 = .ok (.wrI32 .tx 0x80000000) := by decide
theorem test_decode_wrF32 : decode 0x001A 0x3F800000 = .ok (.wrF32 .tx 0x3F800000) := by decide
theorem test_decode_wrF64 : decode 0x001B 0x3FB999999999999A = .ok (.wrF64 .tx 0x3FB999999999999A) := by decide
theorem test_decode_rdU8 : decode 0x0120 0 = .ok (.rdU8 .rx) := by decide
theorem test_decode_rdU16 : decode 0x0021 7 = .ok (.rdU16 .tx) := by decide
theorem test_decode_rdU32 : decode 0x0122 0 = .ok (.rdU32 .rx) := by decide
theorem test_decode_rdI8 : decode 0x0024 0 = .ok (.rdI8 .tx) := by decide
theorem test_decode_rdI16 : decode 0x0125 0 = .ok (.rdI16 .rx) := by decide
theorem test_decode_rdI32 : decode 0x0026 0 = .ok (.rdI32 .tx) := by decide
theorem test_decode_rdF32 : decode 0x012A 0 = .ok (.rdF32 .rx) := by decide
theorem test_decode_rdF64 : decode 0x002B 0 = .ok (.rdF64 .tx) := by decide
theorem test_decode_rdU8At : decode 0x0030 0x10001 = .ok (.rdU8At .tx 1) := by decide
theorem test_decode_rdU32At : decode 0x0132 19 = .ok (.rdU32At .rx 19) := by decide
theorem test_decode_rdF64At : decode 0x003B 247 = .ok (.rdF64At .tx 247) := by decide
theorem test_decode_getDev : decode 0x0141 0 = .ok (.getDev .rx) := by decide
theorem test_decode_getCmd : decode 0x0042 0 = .ok (.getCmd .tx) := by decide
theorem test_decode_getLen : decode 0x0143 0 = .ok (.getLen .rx) := by decide
theorem test_decode_rdB64 : decode 0x0150 0x10000 = .ok (.rdB64 .rx 0) := by decide
theorem test_decode_feed : decode 0x0060 0x1FF = .ok (.feed .tx 0xFF) := by decide
theorem test_decode_rdStatus : decode 0x0061 0 = .ok (.rdStatus .tx) := by decide
theorem test_decode_rdDiag : decode 0x0062 0 = .ok (.rdDiag .tx) := by decide
theorem test_decode_clrDiag : decode 0x0063 0xFFF0 = .ok (.clrDiag .tx 0) := by decide

theorem test_encode_reset : encode (.reset .tx 9 3) = (0x0001, 0x0309) := by decide
theorem test_encode_rdB64 : encode (.rdB64 .rx 12) = (0x0150, 12) := by decide

/-- `RD_U8_AT 1` as one number: the operand word follows the command word. -/
theorem test_decodeTableWord : decodeTableWord 80 0x10030 = some (.rdU8At .tx 1) ∧
    decodeTableWord 16 0x0163 = none ∧ decodeTableWord 16 0xAB0041 = some (.getDev .tx) := by decide

/-- V40 run from reset as the first transaction. -/
theorem test_withFetchWord_runs_it : out (step (State.reset.withFetchWord 16 0x0041)) = some (1, .ok, false) := by decide

/-! ### Frame control and writes (95_test_vectors.md 2.1, 2.2) -/

/-- L1-2. -/
theorem test_reset : view (fun s => (s.tx.raw, s.tx.cur)) (exec (.reset .tx 9 3) (onTx [0xFF, 1, 5, 2, 0xAA, 0xBB] 6)) =
    some ([0xFF, 3, 9, 0], 4) := by decide

/-- V4. -/
theorem test_reset_rx : view (fun s => (s.rx, s.diag, s.resp.code)) (exec (.reset .rx 9 3) State.reset) =
    some (State.reset.rx, 0x04, .illegalOp) := by decide

theorem test_wrU8 : view (fun s => s.tx.raw) (exec (.wrU8 .tx 0xAA) (onTx [0xFF, 1, 5, 0] 4)) =
    some [0xFF, 1, 5, 1, 0xAA] := by decide
theorem test_wrU16 : view (fun s => s.tx.raw) (exec (.wrU16 .tx 0x1234) (onTx [0xFF, 1, 5, 1, 0xFF] 4)) =
    some [0xFF, 1, 5, 3, 0xFF, 0x34, 0x12] := by decide
theorem test_wrU32 : view (fun s => s.tx.raw) (exec (.wrU32 .tx 0xDEADBEEF) (onTx [0xFF, 1, 5, 0] 4)) =
    some [0xFF, 1, 5, 4, 0xEF, 0xBE, 0xAD, 0xDE] := by decide
theorem test_wrI8 : view (fun s => s.tx.raw) (exec (.wrI8 .tx 0x80) (onTx [0xFF, 1, 5, 0] 4)) =
    some [0xFF, 1, 5, 1, 0x80] := by decide
theorem test_wrI16 : view (fun s => s.tx.raw) (exec (.wrI16 .tx 0xFFFE) (onTx [0xFF, 1, 5, 0] 4)) =
    some [0xFF, 1, 5, 2, 0xFE, 0xFF] := by decide
theorem test_wrI32 : view (fun s => s.tx.raw) (exec (.wrI32 .tx 0x80000000) (onTx [0xFF, 1, 5, 0] 4)) =
    some [0xFF, 1, 5, 4, 0x00, 0x00, 0x00, 0x80] := by decide
theorem test_wrF32 : view (fun s => s.tx.raw) (exec (.wrF32 .tx 0x3F800000) (onTx [0xFF, 1, 5, 0] 4)) =
    some [0xFF, 1, 5, 4, 0x00, 0x00, 0x80, 0x3F] := by decide
theorem test_wrF64 : view (fun s => s.tx.raw) (exec (.wrF64 .tx 0x3FB999999999999A) (onTx [0xFF, 1, 5, 0] 4)) =
    some [0xFF, 1, 5, 8, 0x9A, 0x99, 0x99, 0x99, 0x99, 0x99, 0xB9, 0x3F] := by decide

/-- L1-3 step 3, V18: a write that lands on 255 bytes. -/
theorem test_wrU8_lands : view (fun s => (s.tx.blen, s.resp.code, s.diag)) (exec (.wrU8 .tx 0x7E) (long 250 4)) =
    some (255, .ok, 0) := by decide
/-- V19: neither byte is written. -/
theorem test_wrU16_rejected : view (fun s => (s.tx, s.resp.code, s.diag)) (exec (.wrU16 .tx 0) (long 250 4)) =
    some ((long 250 4).tx, .oversizeWrite, 0x01) := by decide
/-- V20. -/
theorem test_wrF64_rejected : view (fun s => (s.tx.blen, s.resp.code)) (exec (.wrF64 .tx 0) (long 244 4)) =
    some (248, .oversizeWrite) := by decide

/-! ### Reads (95_test_vectors.md 2.3, 2.4) -/

theorem test_rdU8 : view (fun s => (s.resp.rdata, s.tx.cur)) (exec (.rdU8 .tx) (v22 4)) = some (0x80, 5) := by decide
/-- V28. -/
theorem test_rdU8_empty : view (fun s => (s.resp, s.tx.cur, s.diag)) (exec (.rdU8 .tx) (onTx [0xFF, 1, 5, 0] 4)) =
    some (⟨0, .outOfRangeRead, false⟩, 4, 0x02) := by decide
theorem test_rdU16 : view (fun s => (s.resp.rdata, s.tx.cur)) (exec (.rdU16 .tx) (v22 5)) = some (0x8001, 7) := by decide
theorem test_rdU32 : view (fun s => (s.resp.rdata, s.tx.cur)) (exec (.rdU32 .tx) (v22 19)) = some (0x7FF80000, 23) := by decide
theorem test_rdI8 : out (exec (.rdI8 .tx) (v22 4)) = some (0xFFFFFFFFFFFFFF80, .ok, false) := by decide
theorem test_rdI16 : out (exec (.rdI16 .tx) (v22 5)) = some (0xFFFFFFFFFFFF8001, .ok, false) := by decide
theorem test_rdI32 : out (exec (.rdI32 .tx) (v22 7)) = some (0xFFFFFFFFFFFFFFFF, .ok, false) := by decide
theorem test_rdF32 : out (exec (.rdF32 .tx) (v22 11)) = some (0xC0200000, .ok, false) := by decide
theorem test_rdF64 : out (exec (.rdF64 .tx) (v22 15)) = some (0x7FF8000000000000, .ok, false) := by decide
/-- V25. -/
theorem test_rdF64_rejected : view (fun s => (s.resp.code, s.tx.cur)) (exec (.rdF64 .tx) (v22 18)) =
    some (.outOfRangeRead, 18) := by decide
/-- From a fresh V49, `RD_U16.rx`. -/
theorem test_rdU16_rx : view (fun s => (s.resp.rdata, s.rx.cur, s.tx.cur))
    (exec (.rdU16 .rx) (onRx [0xFF, 1, 5, 2, 0xAA, 0xBB] 4)) = some (0xBBAA, 6, 4) := by decide

theorem test_rdU8At : out (exec (.rdU8At .tx 0) (v22 4)) = some (0xFF, .ok, false) := by decide
/-- V38. -/
theorem test_rdU8At_far : out (exec (.rdU8At .tx 0xFFFF) (v22 4)) = some (0, .outOfRangeRead, false) := by decide
theorem test_rdU32At : out (exec (.rdU32At .tx 0) (v22 4)) = some (0x130501FF, .ok, false) := by decide
/-- V33. -/
theorem test_rdU32At_rejected : out (exec (.rdU32At .tx 20) (v22 4)) = some (0, .outOfRangeRead, false) := by decide
/-- V35: an unaligned read. -/
theorem test_rdF64At : view (fun s => (s.resp.rdata, s.tx.cur)) (exec (.rdF64At .tx 12) (v22 4)) =
    some (0x0000000000C02000, 4) := by decide

/-- 00_scope.md R9: a read answers with its RESP in a state no run reaches as well, a length byte above 251. -/
theorem test_rdF64At_unreachable : view (fun s => (s.resp.code, s.diag)) (exec (.rdF64At .tx 248) (long 255 4)) =
    some (.ok, 0) := by decide

/-! ### Accessors and base64 (95_test_vectors.md 2.5) -/

theorem test_getDev : out (exec (.getDev .rx) (onRx [0xFF, 3, 9, 3, 7, 8, 9] 4)) = some (3, .ok, false) := by decide
theorem test_getCmd : out (exec (.getCmd .rx) (onRx [0xFF, 3, 9, 3, 7, 8, 9] 4)) = some (9, .ok, false) := by decide
theorem test_getLen : out (exec (.getLen .tx) (onTx [0xFF, 1, 0, 2, 7, 0] 4)) = some (2, .ok, false) := by decide

/-- L1-6: the reset frame is `/wEAAA==`. -/
theorem test_rdB64 : (List.range 9).map (fun k => out (exec (.rdB64 .tx (BitVec.ofNat 16 k)) State.reset)) =
    [(0x2F : Word), 0x77, 0x45, 0x41, 0x41, 0x41, 0x3D, 0x3D].map (fun c => some (c, .ok, false)) ++
      [some (0, .outOfRangeRead, false)] := by decide
/-- V43: `/wMJAwcICQ==`, characters 9 and 10. -/
theorem test_rdB64_rx : (out (exec (.rdB64 .rx 9) (onRx [0xFF, 3, 9, 3, 7, 8, 9] 4)),
    out (exec (.rdB64 .rx 10) (onRx [0xFF, 3, 9, 3, 7, 8, 9] 4))) =
      (some (0x51, .ok, false), some (0x3D, .ok, false)) := by decide

/-! ### The deframer, status and diagnostics (95_test_vectors.md 2.6, 2.7) -/

/-- V52: a length of 252. -/
theorem test_feed_length_252 : view (fun s => (s.dfr.state, s.rx.raw, s.diag, s.resp))
    (exec (.feed .tx 0xFC) (onDfr .length 1 2 0 State.reset)) =
      some (.start, [0xFF, 1, 2, 0], 0x08, ⟨0, .ok, false⟩) := by decide
/-- V49: the last payload byte completes the frame. -/
theorem test_feed_completes : view (fun s => (s.dfr.state, s.rx.raw, s.resp))
    (exec (.feed .tx 0xBB) (onDfr .data 1 5 2 (onRx [0xFF, 1, 5, 1, 0xAA] 4))) =
      some (.start, [0xFF, 1, 5, 2, 0xAA, 0xBB], ⟨1, .ok, true⟩) := by decide
/-- V51: an empty frame is complete at its length byte, and `frame_done` follows DONE on the stream port. -/
theorem test_stream_zero_length : view (fun s => (s.rx.raw, s.frameDone))
    (step { onDfr .length 7 0x22 0 State.reset with input := [.stream 0] }) = some ([0xFF, 7, 0x22, 0], true) := by decide
/-- V61. -/
theorem test_rdStatus : out (exec (.rdStatus .tx) (onDfr .length 3 9 0 State.reset)) = some (0x00090303, .ok, false) := by decide
/-- V63. -/
theorem test_rdDiag : view (fun s => (s.resp.rdata, s.diag)) (exec (.rdDiag .tx) { State.reset with diag := 0x02 }) =
    some (0x02, 0x02) := by decide
/-- V64. -/
theorem test_clrDiag : view (fun s => s.diag) (exec (.clrDiag .tx 1) { State.reset with diag := 0x03 }) = some 0x02 := by decide
/-- V66. -/
theorem test_clrDiag_rx : view (fun s => s.diag) (exec (.clrDiag .rx 0xF) { State.reset with diag := 0x02 }) =
    some 0x06 := by decide

/-- 20_memory.md R60: the stream byte of a same-cycle pair is taken first, and the host command stays presented. -/
theorem test_both : view (fun s => (s.dfr.state, s.input)) (step { State.reset with input := [.both 0xFF 0x0061 0] }) =
    some (.device, [.host 0x0061 0]) := by decide
/-- 70_reset_and_hazards.md R251. -/
theorem test_rst : step { long 251 255 with input := [.rst], diag := 0x0F } = .next State.reset := by rfl

/-! ### Witnesses: for each statement with hypotheses, a state and operands that meet all of them together, one per clause, at the
boundary values of its ranges -/

/-- An `RX` frame being received: 1 of 2 declared bytes, and 0 of 251. -/
def receiving : State := onDfr .data 1 5 2 (onRx [0xFF, 1, 5, 1, 0xAA] 4)
def receivingLong : State := onDfr .data 1 5 251 (onRx [0xFF, 1, 5, 0] 4)

/-- A state with a non-empty history: a full `TX` read to its end, a frame in `RX`, every sticky bit set. -/
def busy : State :=
  { long 251 255 with
    rx := unit [0xFF, 3, 9, 3, 7, 8, 9] 6, dfr := ⟨.device, 3, 9, 3⟩, diag := 0x0F, resp := ⟨1, .ok, true⟩, frameDone := true }

theorem witness_ResetLeavesTheSpecifiedState :
    ({ busy with input := [.rst, .host 0x0041 0] } : State).input = .rst :: [.host 0x0041 0] := by decide

theorem witness_StepKeepsInvariant :
    State.Inv { busy with input := [.host 0x0120 0] } ∧ State.Inv { receiving with input := [.stream 0xBB] } ∧
      (∃ s', step { busy with input := [.host 0x0120 0] } = .next s') ∧
      ∃ s', step { receiving with input := [.stream 0xBB] } = .next s' :=
  ⟨by decide, by decide, ⟨_, rfl⟩, ⟨_, rfl⟩⟩

theorem witness_UnitInvariantsBoundTheFrame : busy.Inv ∧ receivingLong.Inv := by decide
theorem witness_EveryStepProceeds : busy.input = [] := by decide

theorem witness_StepRunsTheDecodedCommand :
    ({ busy with input := [.host 0x0125 0] } : State).input = .host 0x0125 0 :: [] ∧ decode 0x0125 0 = .ok (.rdI16 .rx) := by
  decide

theorem witness_StreamByteIsFeed : ({ receiving with input := [.stream 0xBB, .rst] } : State).input = .stream 0xBB :: [.rst] := by
  decide
theorem witness_SameCyclePairIsStreamThenHost :
    ({ busy with input := [.both 0xFF 0x0061 0] } : State).input = .both 0xFF 0x0061 0 :: [] := by decide

/-- One word for each condition of 30_encoding.md R75, and the first and last legal words. -/
theorem witness_IllegalCommandOnlyReports :
    Illegal 0x0220 ∧ Illegal 0x0013 ∧ Illegal 0x0163 ∧ ¬ Illegal 0x0001 ∧ ¬ Illegal 0x0150 ∧
      ({ busy with input := [.host 0x0163 0xF] } : State).input = .host 0x0163 0xF :: [] :=
  ⟨.inl (by decide), .inr (.inl (by decide)), .inr (.inr (by decide)), by unfold Illegal; decide, by unfold Illegal; decide,
    rfl⟩

theorem witness_DecodesExactlyTheLegalWords : decode 0x0150 12 = .ok (.rdB64 .rx 12) ∧ legalCmd 0x0150 = true := by decide
theorem witness_IllFormedCommandRaisesIllegalOp : ¬ WellFormed (.feed .rx 0xFF) := by decide
theorem witness_DecodeInvertsEncode : WellFormed (.clrDiag .tx 0xF) ∧ WellFormed (.rdB64 .rx 0xFFFF) := by decide
theorem witness_EncodeInvertsDecode : decode 0x0063 0xFFFF = .ok (.clrDiag .tx 0xF) := by decide
theorem witness_OpcodeSubFields : subFields (.rdF64At .rx 0) = some (3, 2, 8) ∧ subFields (.wrU8 .tx 0) = some (1, 0, 1) := by
  decide

/-- For every opcode, a word with it that is not one of its legal words: the reserved bit 9 set. -/
theorem witness_OnlyWords :
    ∀ op ∈ anyTargetOps ++ txOnlyOps, ∃ cmd : Cmd, cmd.extractLsb' 0 8 = op ∧ cmd ∉ [cmdWord .tx op, cmdWord .rx op] := by
  have h : ∀ op ∈ anyTargetOps ++ txOnlyOps, (0x0200 ||| op.setWidth 16 : Cmd).extractLsb' 0 8 = op ∧
      (0x0200 ||| op.setWidth 16 : Cmd) ∉ [cmdWord .tx op, cmdWord .rx op] := by decide
  exact fun op hop => ⟨_, h op hop⟩

theorem witness_FrameResetWritesTheHeader : Memory.wf busy.tx.buf = true := by decide
theorem witness_ResetCommandEmptiesTx : busy.tx.Inv := by decide
theorem witness_ResetCommandIsIdempotent : (onTx [0xFF, 1, 5, 2, 0xAA, 0xBB] 6).tx.Inv := by decide

/-- Every width, the last length that fits and the first that does not, on both units. -/
theorem witness_AppendStoresAllOrNothing :
    (∀ w ∈ [1, 2, 4, 8], 0x7E < 2 ^ (8 * w) ∧ (long (BitVec.ofNat 8 (251 - w)) 4).tx.Inv ∧
      (long (BitVec.ofNat 8 (251 - w)) 4).tx.blen + w ≤ 255 ∧ (long (BitVec.ofNat 8 (252 - w)) 4).tx.Inv ∧
      255 < (long (BitVec.ofNat 8 (252 - w)) 4).tx.blen + w) ∧ (receivingLong.fbu .rx).Inv := by decide

theorem witness_UnsignedWritesAppend : (long 250 4).tx.Inv ∧ (long 250 4).tx.blen + 1 ≤ 255 ∧ 255 < (long 251 4).tx.blen + 1 ∧
    (long 249 4).tx.blen + 2 ≤ 255 ∧ 255 < (long 250 4).tx.blen + 2 := by decide
theorem witness_SignedWritesAppend : (long 247 4).tx.Inv ∧ (long 247 4).tx.blen + 4 ≤ 255 ∧ 255 < (long 248 4).tx.blen + 4 := by
  decide
theorem witness_FloatWritesAppend : (long 243 4).tx.Inv ∧ (long 243 4).tx.blen + 8 ≤ 255 ∧ 255 < (long 244 4).tx.blen + 8 := by
  decide

theorem witness_WriteBoundaryLaw : writeField (.wrF64 .tx 1) = some (8, 1) ∧ (long 251 4).tx.Inv ∧ (long 251 4).tx.blen = 255 ∧
    (long 243 4).tx.Inv ∧ (long 243 4).tx.blen + 8 = 255 := by decide
theorem witness_LengthFieldLaw :
    busy.Inv ∧ ∀ i ∈ [Instr.wrU8 .tx 0xAA, .wrI16 .tx 0xFFFE, .wrF64 .tx 0], (writeField i).isSome = true := by decide

/-- V26, V25: the last bytes of a frame, and one byte too many. -/
theorem witness_SequentialRead :
    ((v22 19).fbu .tx).Inv ∧ ((v22 19).fbu .tx).cur.toNat + 4 ≤ ((v22 19).fbu .tx).blen ∧
      ((v22 20).fbu .tx).Inv ∧ ((v22 20).fbu .tx).blen < ((v22 20).fbu .tx).cur.toNat + 4 ∧
      (∃ s', append .tx 4 0 (v22 19) = .next s') :=
  ⟨by decide, by decide, by decide, by decide, ⟨_, rfl⟩⟩
theorem witness_UnsignedReads : busy.rx.Inv ∧ busy.rx.cur.toNat + 1 ≤ busy.rx.blen ∧ (v22 21).tx.Inv ∧
    (v22 21).tx.cur.toNat + 2 ≤ (v22 21).tx.blen ∧ ((v22 22).fbu .tx).blen < ((v22 22).fbu .tx).cur.toNat + 2 := by decide
theorem witness_SignedReads : (busy.fbu .tx).blen < (busy.fbu .tx).cur.toNat + 1 ∧ (v22 19).tx.Inv ∧
    (v22 19).tx.cur.toNat + 4 ≤ (v22 19).tx.blen := by decide
theorem witness_FloatReads : (v22 15).tx.Inv ∧ (v22 15).tx.cur.toNat + 8 ≤ (v22 15).tx.blen ∧
    ((v22 16).fbu .tx).blen < ((v22 16).fbu .tx).cur.toNat + 8 := by decide

theorem witness_OffsetReads : (busy.fbu .tx).Inv ∧ (254 : BitVec 16).toNat + 1 ≤ (busy.fbu .tx).blen ∧
    (busy.fbu .tx).blen < (255 : BitVec 16).toNat + 1 ∧ 255 ≤ (255 : BitVec 16).toNat ∧
    (247 : BitVec 16).toNat + 8 ≤ (busy.fbu .tx).blen ∧ (busy.fbu .tx).blen < (248 : BitVec 16).toNat + 8 := by decide
theorem witness_HeaderAccessors : (busy.fbu .tx).Inv ∧ (receiving.fbu .rx).Inv := by decide

theorem witness_RdB64ReadsStandardBase64 : (State.reset.fbu .tx).Inv ∧
    (base64 (State.reset.fbu .tx).raw)[(7 : BitVec 16).toNat]? = some 0x3D ∧
    (base64 (State.reset.fbu .tx).raw)[(8 : BitVec 16).toNat]? = none := by decide
theorem witness_Base64LengthAndPadding : State.reset.tx.Inv ∧ State.reset.tx.b64[6]? = some 0x3D := by decide
theorem witness_RawReadout : busy.Inv ∧ receiving.Inv := by decide
theorem witness_Base64Readout : busy.Inv ∧ State.reset.Inv := by decide
theorem witness_WriteThenReadRoundTrips : busy.tx.Inv := by decide
theorem witness_RejectedReadKeepsTheCursor : (long 250 4).tx.Inv := by decide

theorem witness_MixedWidthAccess : ((v22 4).fbu .tx).Inv ∧ (19 : BitVec 16).toNat + 4 ≤ ((v22 4).fbu .tx).blen ∧
    (∀ i, i < 4 → Memory.read ((v22 4).fbu .tx).buf ((19 : BitVec 16).toNat + i) =
      (0x7FF80000 : BitVec 32).extractLsb' (8 * i) 8) ∧
    (long 247 4).tx.Inv ∧ (long 247 4).tx.blen + 4 ≤ 255 := by decide

theorem witness_FeedAlwaysAnswersOk : receivingLong.Inv ∧ (onDfr .length 1 2 0 State.reset).Inv := by decide
theorem witness_FeedInStart : State.reset.dfr.state = .start := by decide
theorem witness_FeedCaptures : busy.dfr.state = .device ∧ (onDfr .command 1 0 0 State.reset).dfr.state = .command := by decide

/-- The lengths at which the cases of 44_deframer.md R184 meet. -/
theorem witness_FeedInLength : (onDfr .length 1 2 0 busy).rx.Inv ∧ (onDfr .length 1 2 0 busy).dfr.state = .length ∧
    (0x00 : Byte).toNat = 0 ∧ 1 ≤ (0x01 : Byte).toNat ∧ (0xFB : Byte).toNat ≤ 251 ∧ 252 ≤ (0xFC : Byte).toNat := by decide

theorem witness_FeedInData : receiving.Inv ∧ receiving.dfr.state = .data ∧
    receiving.rx.lenByte.toNat + 1 = receiving.dfr.capLen.toNat ∧
    receivingLong.Inv ∧ receivingLong.dfr.state = .data ∧
    receivingLong.rx.lenByte.toNat + 1 ≠ receivingLong.dfr.capLen.toNat := by decide

theorem witness_DoneMarksACompleteFrame :
    receiving.Inv ∧ ∃ s', exec (.feed .tx 0xBB) receiving = .next s' ∧ s'.resp.done = true :=
  ⟨by decide, _, rfl, by decide⟩

theorem witness_DeframerRecovers : (onDfr .device 0 0 0 State.reset).Inv ∧ (List.replicate 254 (0 : Byte)).length = 254 :=
  ⟨by decide, List.length_replicate⟩
theorem witness_RxFrameOutlivesThreeBytes :
    State.Inv (onDfr .start 3 9 3 busy) ∧ (onDfr .start 3 9 3 busy).dfr.state = .start ∧ [(0xFF : Byte), 1, 2].length = 3 := by
  decide
theorem witness_WellFormedFrame : State.reset.Inv ∧ State.reset.dfr.state = .start ∧ ([] : List Byte).length ≤ 251 ∧
    (List.replicate 251 (0xFF : Byte)).length ≤ 251 :=
  ⟨by decide, rfl, by decide, Nat.le_of_eq List.length_replicate⟩
theorem witness_DeframerInvertsFramer : (onDfr .start 3 9 3 busy).Inv ∧ (onDfr .start 3 9 3 busy).dfr.state = .start := by decide

/-- A FEED that changes each capture register. -/
theorem witness_RdStatus :
    (∃ s', exec (.feed .tx 7) busy = .next s' ∧ s'.dfr.capDev ≠ busy.dfr.capDev) ∧
      (∃ s', exec (.feed .tx 7) (onDfr .command 3 9 3 busy) = .next s' ∧ s'.dfr.capCmd ≠ 9) ∧
      ∃ s', exec (.feed .tx 7) (onDfr .length 3 9 3 busy) = .next s' ∧ s'.dfr.capLen ≠ 3 :=
  ⟨⟨_, rfl, by decide⟩, ⟨_, rfl, by decide⟩, ⟨_, rfl, by decide⟩⟩

/-- Bit 3 cleared by `CLR_DIAG 8`, and by `rst`; each of the four bits set by its event. -/
theorem witness_DiagBitsAreSticky :
    (∃ s', step { busy with input := [.host 0x0063 8] } = .next s' ∧ busy.diag.getLsbD 3 = true ∧
      s'.diag.getLsbD 3 = false) ∧
      (∃ s', step { busy with input := [.rst] } = .next s' ∧ s'.diag.getLsbD 3 = false) ∧
      (∃ s', exec (.wrU8 .tx 1) (long 251 4) = .next s' ∧ s'.resp.code = .oversizeWrite ∧
        (long 251 4).diag.getLsbD 0 = false ∧ s'.diag.getLsbD 0 = true) ∧
      (∃ s', exec (.rdU8 .tx) State.reset = .next s' ∧ s'.resp.code = .outOfRangeRead ∧ s'.diag.getLsbD 1 = true) ∧
      (∃ s', exec (.rdDiag .rx) State.reset = .next s' ∧ s'.resp.code = .illegalOp ∧ s'.diag.getLsbD 2 = true) ∧
      (onDfr .length 1 2 0 State.reset).dfr.state = .length ∧ 251 < (0xFC : Byte).toNat ∧
      ∃ s', exec (.feed .tx 0xFC) (onDfr .length 1 2 0 State.reset) = .next s' ∧ s'.diag.getLsbD 3 = true :=
  ⟨⟨_, rfl, by decide, by decide⟩, ⟨_, rfl, by decide⟩, ⟨_, rfl, by decide, by decide, by decide⟩,
    ⟨_, rfl, by decide, by decide⟩, ⟨_, rfl, by decide, by decide⟩, by decide, by decide, ⟨_, rfl, by decide⟩⟩

/-- One error of each kind. -/
theorem witness_ErrorsArePrecise :
    (∃ s', exec (.wrU8 .tx 1) busy = .next s' ∧ s'.resp.code ≠ .ok) ∧
      (∃ s', exec (.rdU8 .tx) busy = .next s' ∧ s'.resp.code ≠ .ok) ∧
      ∃ s', exec (.rdStatus .rx) busy = .next s' ∧ s'.resp.code ≠ .ok :=
  ⟨⟨_, rfl, by decide⟩, ⟨_, rfl, by decide⟩, ⟨_, rfl, by decide⟩⟩

/-- Each of the changes the statement speaks of does happen. -/
theorem witness_UnitsAreWrittenOnlyByTheirOwners :
    (∃ s', exec (.feed .tx 0xBB) receiving = .next s' ∧ s'.rx.buf ≠ receiving.rx.buf ∧ s'.dfr ≠ receiving.dfr) ∧
      (∃ s', exec (.rdU8 .rx) busy = .next s' ∧ s'.rx.cur ≠ busy.rx.cur) ∧
      (∃ s', exec (.rdU8 .tx) (v22 4) = .next s' ∧ s'.tx.cur ≠ (v22 4).tx.cur) ∧
      (∃ s', exec (.reset .tx 9 3) busy = .next s' ∧ s'.tx.buf ≠ busy.tx.buf ∧ s'.tx.cur ≠ busy.tx.cur) ∧
      ∃ s', exec (.wrU8 .tx 1) (v22 4) = .next s' ∧ s'.tx.buf ≠ (v22 4).tx.buf :=
  ⟨⟨_, rfl, by decide, by decide⟩, ⟨_, rfl, by decide⟩, ⟨_, rfl, by decide⟩, ⟨_, rfl, by decide, by decide⟩, ⟨_, rfl, by decide⟩⟩

/-- Two states with one frame and different stale bytes. -/
theorem witness_StaleBytesAreUnobservable :
    (onTx [0xFF, 1, 5, 0] 4).Inv ∧ (onTx [0xFF, 1, 5, 0, 0xAA, 0xBB] 4).Inv ∧
      (onTx [0xFF, 1, 5, 0] 4).SameButStale (onTx [0xFF, 1, 5, 0, 0xAA, 0xBB] 4) ∧
      onTx [0xFF, 1, 5, 0] 4 ≠ onTx [0xFF, 1, 5, 0, 0xAA, 0xBB] 4 := by decide

end Sys2Proof.Tests
end

section
/-! PROOFS. The statements of 00_scope.md: every step proceeds, and a host command's step is the decoded command. -/

namespace Sys2Proof.Machine

/-- A transaction whose command word is legal is the command's effect (30_encoding.md R75). -/
theorem transact_of_decode_ok {cmd : Cmd} {arg : Word} {i : Instr} (h : decode cmd arg = .ok i) (s : State) :
    transact cmd arg s = exec i s := by
  simp only [transact, h]

/-- A transaction whose command word is illegal raises IllegalOp, whatever condition of 30_encoding.md R75 it breaks. -/
theorem transact_of_decode_error {cmd : Cmd} {arg : Word} {r : IllegalReason} (h : decode cmd arg = .error r)
    (s : State) : transact cmd arg s = .next (raise .illegalOp s) := by
  simp only [transact, h]

/-- A stream byte answers the deframer's next state with `frame_done` driven by its DONE (44_deframer.md R192). -/
theorem streamByte_of_deframerStep {b : Byte} {s s' : State} (h : deframerStep b s = .next s') :
    streamByte b s = .next { s' with frameDone := s'.resp.done } := by
  rw [streamByte_eq, h]

theorem transact_proceeds (cmd : Cmd) (arg : Word) (s : State) : Proceeds (transact cmd arg s) := by
  cases h : decode cmd arg with
  | ok i => rw [transact_of_decode_ok h]; exact exec_proceeds i s
  | error r => exact ⟨_, transact_of_decode_error h s⟩

theorem streamByte_proceeds (b : Byte) (s : State) : Proceeds (streamByte b s) := by
  obtain ⟨s', h⟩ := deframerStep_proceeds b s
  exact ⟨_, streamByte_of_deframerStep h⟩

/-- A step answers a next state in every state, by cases on the oldest presentation (00_scope.md R8, R9). -/
theorem step_proceeds (s : State) : Proceeds (step s) := by
  cases h : s.input with
  | nil => exact ⟨_, step_of_nil h⟩
  | cons presented rest =>
    cases presented with
    | host cmd arg => rw [step_of_host h]; exact transact_proceeds _ _ _
    | stream b => rw [step_of_stream h]; exact streamByte_proceeds _ _
    | both b cmd arg => rw [step_of_both h]; exact streamByte_proceeds _ _
    | rst => exact ⟨_, step_of_rst h⟩

/-- Settles O5: no presentation makes a step fault or be refused, and a step with none leaves the state alone. -/
theorem everyStepProceeds : Obligations.EveryStepProceeds :=
  fun s => ⟨step_proceeds s, step_of_nil⟩

/-- Settles O6: the step takes the presentation as a transaction, and a transaction that decodes is its command. -/
theorem stepRunsTheDecodedCommand : Obligations.StepRunsTheDecodedCommand := by
  intro s cmd arg rest i hin hdec
  rw [step_of_host hin, transact_of_decode_ok hdec]

end Sys2Proof.Machine
end

section
/-! PROOFS. What one step can do, said once: the presentation it takes and the transaction that follows. -/

namespace Sys2Proof.Machine

/-- Everything a step can do, one case per kind of presentation (10_state.md R33, 20_memory.md R60). -/
inductive StepEffect (s : State) : State → Prop where
  /-- nothing presented -/
  | idle (hin : s.input = []) : StepEffect s s
  /-- a legal host command -/
  | command (cmd : Cmd) (arg : Word) (rest : List Input) (i : Instr) (s' : State)
      (hin : s.input = .host cmd arg :: rest) (hdec : decode cmd arg = .ok i)
      (h : exec i { s with input := rest } = .next s') : StepEffect s s'
  /-- an illegal command word (30_encoding.md R75) -/
  | illegal (cmd : Cmd) (arg : Word) (rest : List Input) (hin : s.input = .host cmd arg :: rest) :
      StepEffect s (raise .illegalOp { s with input := rest })
  /-- a stream byte, alone or ahead of the host command of its cycle; `rest` is what is presented after it -/
  | byte (b : Byte) (rest : List Input) (s' : State)
      (hin : s.input = .stream b :: rest ∨
        ∃ cmd arg later, s.input = .both b cmd arg :: later ∧ rest = .host cmd arg :: later)
      (h : deframerStep b { s with input := rest } = .next s') :
      StepEffect s { s' with frameDone := s'.resp.done }
  /-- hardware reset (70_reset_and_hazards.md R250) -/
  | rst (rest : List Input) (hin : s.input = .rst :: rest) : StepEffect s { State.reset with input := rest }

/-- A stream byte's answer is the deframer's next state with `frame_done` driven (44_deframer.md R192). -/
theorem streamByte_effect {b : Byte} {s s' : State} (h : streamByte b s = .next s') :
    ∃ fed, deframerStep b s = .next fed ∧ s' = { fed with frameDone := fed.resp.done } := by
  obtain ⟨fed, hfed⟩ := deframerStep_proceeds b s
  rw [streamByte_of_deframerStep hfed] at h
  cases h
  exact ⟨fed, hfed, rfl⟩

/-- A step that answers a next state has one of the effects above. -/
theorem step_effect {s s' : State} (h : step s = .next s') : StepEffect s s' := by
  cases hin : s.input with
  | nil =>
    rw [step_of_nil hin] at h
    cases h
    exact .idle hin
  | cons presented rest =>
    cases presented with
    | host cmd arg =>
      rw [step_of_host hin] at h
      cases hdec : decode cmd arg with
      | ok i =>
        rw [transact_of_decode_ok hdec] at h
        exact .command cmd arg rest i s' hin hdec h
      | error r =>
        rw [transact_of_decode_error hdec] at h
        cases h
        exact .illegal cmd arg rest hin
    | stream b =>
      rw [step_of_stream hin] at h
      obtain ⟨fed, hfed, rfl⟩ := streamByte_effect h
      exact .byte b rest fed (.inl hin) hfed
    | both b cmd arg =>
      rw [step_of_both hin] at h
      obtain ⟨fed, hfed, rfl⟩ := streamByte_effect h
      exact .byte b _ fed (.inr ⟨cmd, arg, rest, hin, rfl⟩) hfed
    | rst =>
      rw [step_of_rst hin] at h
      cases h
      exact .rst rest hin

end Sys2Proof.Machine
end

section
/-! PROOFS. The invariant of 10_state.md R24 and 44_deframer.md R190: it bounds the frames, holds after reset, and every command,
every byte and so every step keeps it. -/

namespace Sys2Proof.Machine

theorem State.Inv.fbu {s : State} (h : s.Inv) (t : Target) : (s.fbu t).Inv := by
  obtain ⟨htx, hrx, -, -⟩ := h
  cases t
  · exact htx
  · exact hrx

/-- Settles O4: R24's bounds, read off the unit's invariant. -/
theorem unitInvariantsBoundTheFrame : Obligations.UnitInvariantsBoundTheFrame := by
  intro s t h
  have hinv := h.fbu t
  obtain ⟨-, hmarker, hlen, hcurLow, hcurHigh⟩ := hinv
  have hpos : 0 < (s.fbu t).blen := Nat.lt_of_lt_of_le (by omega) (Fbu.four_le_blen _)
  have hfirst : (s.fbu t).raw[0]? = some 0xFF := by
    rw [Fbu.raw_getElem? _ hpos, hmarker]
    rfl
  exact ⟨hfirst, hlen, Fbu.four_le_blen _, (h.fbu t).blen_le, hcurLow, hcurHigh, Fbu.raw_length _⟩

theorem Fbu.atReset_inv : Fbu.atReset.Inv := by decide

theorem reset_inv : State.reset.Inv := ⟨Fbu.atReset_inv, Fbu.atReset_inv, nofun, rfl⟩

/-- Settles O2: both units hold the reset header, and the deframer is in START with no frame under assembly. -/
theorem invariantHoldsAtReset : Obligations.InvariantHoldsAtReset := reset_inv

/-! ### DIAG's reserved bits (10_state.md R31) -/

theorem ErrorKind.diagMask_reserved (k : ErrorKind) : k.diagMask &&& 0xF0 = 0 := by cases k <;> rfl

theorem diag_or_reserved {d : BitVec 8} (hd : d &&& 0xF0 = 0) (k : ErrorKind) : (d ||| k.diagMask) &&& 0xF0 = 0 := by
  rw [BitVec.and_comm, BitVec.and_or_distrib_left, BitVec.and_comm, hd, BitVec.and_comm, k.diagMask_reserved]
  rfl

theorem diagClear_reserved {d : BitVec 8} (hd : d &&& 0xF0 = 0) (m : BitVec 4) : diagClear m d &&& 0xF0 = 0 := by
  rw [diagClear, BitVec.and_assoc, BitVec.and_comm _ 0xF0, ← BitVec.and_assoc, hd]
  exact BitVec.zero_and

/-! ### One command -/

theorem raise_inv {s : State} (h : s.Inv) (k : ErrorKind) : (raise k s).Inv := by
  obtain ⟨htx, hrx, hasm, hdiag⟩ := h
  exact ⟨htx, hrx, hasm, diag_or_reserved hdiag k⟩

/-- A cursor may advance inside the frame (42_reads.md R130). -/
theorem Fbu.Inv.advance {f : Fbu} (h : f.Inv) {w : Nat} (hw : f.cur.toNat + w ≤ f.blen) :
    ({ f with cur := f.cur + BitVec.ofNat 8 w } : Fbu).Inv := by
  have hle := h.blen_le
  obtain ⟨hwf, hmarker, hlen, hlow, -⟩ := h
  have hcur : (f.cur + BitVec.ofNat 8 w).toNat = f.cur.toNat + w := by
    rw [BitVec.toNat_add, BitVec.toNat_ofNat]
    omega
  refine ⟨hwf, hmarker, hlen, ?_, ?_⟩
  · change 4 ≤ (f.cur + BitVec.ofNat 8 w).toNat
    rw [hcur]
    exact Nat.le_add_right_of_le hlow
  · change (f.cur + BitVec.ofNat 8 w).toNat ≤ f.blen
    rw [hcur]
    exact hw

/-- A read that moves a cursor leaves both buffers, the deframer and DIAG alone. -/
theorem State.Inv.advance {s : State} (h : s.Inv) {t : Target} {w : Nat}
    (hw : (s.fbu t).cur.toNat + w ≤ (s.fbu t).blen) :
    (s.setFbu t { s.fbu t with cur := (s.fbu t).cur + BitVec.ofNat 8 w }).Inv := by
  have hunit := (h.fbu t).advance hw
  obtain ⟨htx, hrx, hasm, hdiag⟩ := h
  cases t
  · exact ⟨hunit, hrx, hasm, hdiag⟩
  · exact ⟨htx, hunit, hasm, hdiag⟩

/-- One payload byte that does not complete the frame leaves fewer bytes than declared, and the header as it was. -/
theorem append?_keeps_assembly {s : State} {f : Fbu} {v : Nat} (h : s.Inv) (hs : s.dfr.state = .data)
    (hf : s.rx.append? 1 v = some f) (hne : f.lenByte ≠ s.dfr.capLen) : ({ s with rx := f } : State).AssemblyInv := by
  obtain ⟨-, ⟨hwf, -⟩, hasm, -⟩ := h
  obtain ⟨hlt, hmax, hdev, hcmd⟩ := hasm hs
  obtain ⟨g, hg, -, -, hlen, -, hrest⟩ := Fbu.append?_spec (v := v) hwf (Fbu.append?_some_le hf)
  obtain rfl : g = f := Option.some.inj (hg.symm.trans hf)
  have hblen := s.rx.four_le_blen
  have hne' : g.lenByte.toNat ≠ s.dfr.capLen.toNat := fun he => hne (BitVec.eq_of_toNat_eq he)
  intro _
  refine ⟨?_, hmax, ?_, ?_⟩
  · change g.lenByte.toNat < s.dfr.capLen.toNat
    omega
  · exact (hrest 1 (by omega) (.inl (by omega))).trans hdev
  · exact (hrest 2 (by omega) (.inl (by omega))).trans hcmd

/-- The deframer keeps the invariant, arm by arm of its state table (44_deframer.md R190). -/
theorem deframerStep_inv {b : Byte} {s s' : State} (h : s.Inv) (hstep : deframerStep b s = .next s') : s'.Inv := by
  have hinv := h
  obtain ⟨htx, hrx, -, hdiag⟩ := h
  have hreset := Fbu.frameReset_inv hrx.1 s.dfr.capCmd s.dfr.capDev
  rcases deframerStep_cases hstep with ⟨_, _, rfl⟩ | ⟨_, _, rfl⟩ | ⟨_, rfl⟩ | ⟨_, rfl⟩ | ⟨_, _, rfl⟩ | ⟨_, hb, hle, rfl⟩ |
    ⟨_, _, rfl⟩ | ⟨_, _, rfl⟩ | ⟨f, _, hf, _, rfl⟩ | ⟨f, hs, hf, hne, rfl⟩
  · exact ⟨htx, hrx, nofun, hdiag⟩
  · exact hinv
  · exact ⟨htx, hrx, nofun, hdiag⟩
  · exact ⟨htx, hrx, nofun, hdiag⟩
  · exact ⟨htx, hreset, nofun, hdiag⟩
  · refine ⟨htx, hreset, fun _ => ⟨?_, hle, ?_, ?_⟩, hdiag⟩
    · change (s.rx.frameReset s.dfr.capCmd s.dfr.capDev).lenByte.toNat < b.toNat
      rw [Fbu.frameReset_lenByte hrx.1]
      exact Nat.pos_of_ne_zero fun h0 => hb (BitVec.eq_of_toNat_eq h0)
    · exact Fbu.frameReset_read hrx.1 _ _ 1
    · exact Fbu.frameReset_read hrx.1 _ _ 2
  · exact ⟨htx, hreset, nofun, diag_or_reserved hdiag .lengthOverflow⟩
  · exact raise_inv hinv .oversizeWrite
  · exact ⟨htx, Fbu.append?_inv hrx hf, nofun, hdiag⟩
  · exact ⟨htx, Fbu.append?_inv hrx hf, append?_keeps_assembly (s := s) hinv hs hf hne, hdiag⟩

/-- A command keeps the invariant, effect by effect. -/
theorem exec_inv {i : Instr} {s s' : State} (h : s.Inv) (hexec : exec i s = .next s') : s'.Inv := by
  have hinv := h
  obtain ⟨htx, hrx, hasm, hdiag⟩ := h
  cases exec_effect hexec with
  | raised k hk => exact raise_inv hinv k
  | answered v => exact hinv
  | reset c d hi => exact ⟨Fbu.frameReset_inv htx.1 c d, hrx, hasm, hdiag⟩
  | wrote w v f hi hf => exact ⟨Fbu.append?_inv htx hf, hrx, hasm, hdiag⟩
  | seqRead t w v hi hcur => exact hinv.advance hcur
  | fed b s' hi hstep => exact deframerStep_inv hinv hstep
  | cleared m hi => exact ⟨htx, hrx, hasm, diagClear_reserved hdiag m⟩

/-- The outputs and the queue are no part of the invariant. -/
theorem State.Inv.of_outputs {s : State} (h : s.Inv) (resp : Resp) (frameDone : Bool) (input : List Input) :
    ({ s with resp := resp, frameDone := frameDone, input := input } : State).Inv := h

theorem step_inv {s s' : State} (h : s.Inv) (hstep : step s = .next s') : s'.Inv := by
  have taken (rest : List Input) : ({ s with input := rest } : State).Inv := h.of_outputs s.resp s.frameDone rest
  cases step_effect hstep with
  | idle hin => exact h
  | command cmd arg rest i s' hin hdec hexec => exact exec_inv (taken rest) hexec
  | illegal cmd arg rest hin => exact raise_inv (taken rest) .illegalOp
  | byte b rest fed hin hfed =>
    exact (deframerStep_inv (taken rest) hfed).of_outputs fed.resp fed.resp.done fed.input
  | rst rest hin => exact reset_inv.of_outputs State.reset.resp State.reset.frameDone rest

/-- Settles O3: the invariant is one of every presentation's transaction. -/
theorem stepKeepsInvariant : Obligations.StepKeepsInvariant := fun _ _ => step_inv

end Sys2Proof.Machine
end

section
/-! PROOFS. DIAG (10_state.md R31): what each command does to it, and that its bits are sticky. -/

namespace Sys2Proof.Machine

/-- What a command does to DIAG, with the response code that goes with it. -/
inductive DiagEffect (i : Instr) (s s' : State) : Prop where
  /-- OversizeWrite, OutOfRangeRead or IllegalOp -/
  | raised (k : ErrorKind) (hk : k = .oversizeWrite ∨ k = .outOfRangeRead ∨ k = .illegalOp)
      (hcode : s'.resp.code = k.code) (hdiag : s'.diag = s.diag ||| k.diagMask)
  | kept (hcode : s'.resp.code = .ok) (hdiag : s'.diag = s.diag)
  /-- LengthOverflow, 60_exceptions.md R226 -/
  | overflowed (b : Byte) (hi : i = .feed .tx b) (hs : s.dfr.state = .length) (hb : 251 < b.toNat)
      (hcode : s'.resp.code = .ok) (hdiag : s'.diag = s.diag ||| ErrorKind.diagMask .lengthOverflow)
  | cleared (m : BitVec 4) (hi : i = .clrDiag .tx m) (hcode : s'.resp.code = .ok)
      (hdiag : s'.diag = diagClear m s.diag)

theorem deframerStep_diagEffect {b : Byte} {s s' : State} (h : deframerStep b s = .next s') :
    DiagEffect (.feed .tx b) s s' := by
  rcases deframerStep_cases h with ⟨_, _, rfl⟩ | ⟨_, _, rfl⟩ | ⟨_, rfl⟩ | ⟨_, rfl⟩ | ⟨_, _, rfl⟩ | ⟨_, _, _, rfl⟩ |
    ⟨hs, hb, rfl⟩ | ⟨_, _, rfl⟩ | ⟨_, _, _, _, rfl⟩ | ⟨_, _, _, _, rfl⟩
  · exact .kept rfl rfl
  · exact .kept rfl rfl
  · exact .kept rfl rfl
  · exact .kept rfl rfl
  · exact .kept rfl rfl
  · exact .kept rfl rfl
  · exact .overflowed b rfl hs hb rfl rfl
  · exact .raised .oversizeWrite (.inl rfl) rfl rfl
  · exact .kept rfl rfl
  · exact .kept rfl rfl

theorem exec_diagEffect {i : Instr} {s s' : State} (h : exec i s = .next s') : DiagEffect i s s' := by
  cases exec_effect h with
  | raised k hk => exact .raised k hk rfl rfl
  | answered v => exact .kept rfl rfl
  | reset c d hi => exact .kept rfl rfl
  | wrote w v f hi hf => exact .kept rfl rfl
  | seqRead t w v hi hcur => exact .kept rfl (by simp)
  | fed b s' hi hfed => subst hi; exact deframerStep_diagEffect hfed
  | cleared m hi => exact .cleared m hi rfl rfl

/-! ### Bits that fall -/

/-- CLR_DIAG clears the selected bits only (45_status_diag.md R212). -/
theorem getLsbD_diagClear {m : BitVec 4} {d : BitVec 8} {n : Nat} (hd : d.getLsbD n = true) :
    (diagClear m d).getLsbD n = !m.getLsbD n := by
  have hn : n < 8 := BitVec.lt_of_getLsbD hd
  simp [diagClear, hd, hn]

theorem diagClear_le {m : BitVec 4} {d : BitVec 8} {n : Nat} (h : (diagClear m d).getLsbD n = true) :
    d.getLsbD n = true := by
  simp only [diagClear, BitVec.getLsbD_and, Bool.and_eq_true] at h
  exact h.1

/-- Only a CLR_DIAG that selects a bit clears it. -/
theorem DiagEffect.cleared_of_bit_falls {i : Instr} {s s' : State} {n : Nat} (h : DiagEffect i s s')
    (hset : s.diag.getLsbD n = true) (hclear : s'.diag.getLsbD n = false) :
    ∃ m, i = .clrDiag .tx m ∧ m.getLsbD n = true := by
  have orStays (mask : BitVec 8) : (s.diag ||| mask).getLsbD n = true := by simp [hset]
  cases h with
  | raised k hk hcode hdiag => rw [hdiag, orStays] at hclear; cases hclear
  | kept hcode hdiag => rw [hdiag, hset] at hclear; cases hclear
  | overflowed b hi hs hb hcode hdiag => rw [hdiag, orStays] at hclear; cases hclear
  | cleared m hi hcode hdiag =>
    rw [hdiag, getLsbD_diagClear hset] at hclear
    exact ⟨m, hi, by simpa using hclear⟩

theorem exec_bit_falls {i : Instr} {s s' : State} {n : Nat} (h : exec i s = .next s')
    (hset : s.diag.getLsbD n = true) (hclear : s'.diag.getLsbD n = false) :
    ∃ m, i = .clrDiag .tx m ∧ m.getLsbD n = true :=
  (exec_diagEffect h).cleared_of_bit_falls hset hclear

/-- Over a step, a bit falls under `rst` or under a presented CLR_DIAG that selects it. -/
theorem step_bit_falls {s s' : State} {n : Nat} (h : step s = .next s') (hset : s.diag.getLsbD n = true)
    (hclear : s'.diag.getLsbD n = false) :
    (∃ rest, s.input = .rst :: rest) ∨
      ∃ cmd arg rest m, s.input = .host cmd arg :: rest ∧ decode cmd arg = .ok (.clrDiag .tx m) ∧
        m.getLsbD n = true := by
  cases step_effect h with
  | idle hin => rw [hset] at hclear; cases hclear
  | command cmd arg rest i s' hin hdec hexec =>
    obtain ⟨m, rfl, hm⟩ := exec_bit_falls hexec hset hclear
    exact .inr ⟨cmd, arg, rest, m, hin, hdec, hm⟩
  | illegal cmd arg rest hin =>
    rw [raise_diag, BitVec.getLsbD_or, hset] at hclear
    cases hclear
  | byte b rest fed hin hfed =>
    obtain ⟨m, hi, -⟩ := (deframerStep_diagEffect hfed).cleared_of_bit_falls hset hclear
    cases hi
  | rst rest hin => exact .inl ⟨rest, hin⟩

/-! ### Bits that rise -/

/-- A length above PAYLOAD_MAX sets LEN_OVERFLOW and drops the frame (44_deframer.md R184, arm (c)). -/
theorem deframerStep_overflow {b : Byte} {s : State} (hs : s.dfr.state = .length) (hb : 251 < b.toNat) :
    deframerStep b s = .next (respond .ok 0 false { s with
      rx := s.rx.frameReset s.dfr.capCmd s.dfr.capDev
      dfr := { s.dfr with capLen := b, state := .start }
      diag := diagSet .lengthOverflow s.diag }) := by
  have h0 : b ≠ 0 := by rintro rfl; simp at hb
  have hle : ¬ b.toNat ≤ Config.payloadMax := Nat.not_le.2 hb
  simp only [deframerStep, hs, feedLength, h0, hle, if_false]
  rfl

theorem deframerStep_overflow_sets_bit {b : Byte} {s s' : State} (h : deframerStep b s = .next s')
    (hs : s.dfr.state = .length) (hb : 251 < b.toNat) : s'.diag.getLsbD 3 = true := by
  rw [deframerStep_overflow hs hb] at h
  cases h
  simp [diagSet, ErrorKind.diagMask]

/-- A response code other than OK names its kind (60_exceptions.md R221). -/
theorem ErrorKind.eq_of_code_eq {j k : ErrorKind} (hk : k.code ≠ .ok) (h : j.code = k.code) : j = k := by
  revert hk h
  cases j <;> cases k <;> decide

/-- A response other than OK comes with its kind's DIAG bit (60_exceptions.md R221). -/
theorem DiagEffect.diag_of_error_code {i : Instr} {s s' : State} {k : ErrorKind} (h : DiagEffect i s s')
    (hk : k.code ≠ .ok) (hcode : s'.resp.code = k.code) : s'.diag = s.diag ||| k.diagMask := by
  cases h with
  | raised j hj hcode' hdiag =>
    obtain rfl : j = k := ErrorKind.eq_of_code_eq hk (hcode'.symm.trans hcode)
    exact hdiag
  | kept hok hdiag => exact absurd (hcode.symm.trans hok) hk
  | overflowed b hi hs hb hok hdiag => exact absurd (hcode.symm.trans hok) hk
  | cleared m hi hok hdiag => exact absurd (hcode.symm.trans hok) hk

theorem DiagEffect.error_sets_bit {i : Instr} {s s' : State} {k : ErrorKind} {n : Nat} (h : DiagEffect i s s')
    (hk : k.code ≠ .ok) (hcode : s'.resp.code = k.code) (hn : k.diagMask.getLsbD n = true) :
    s'.diag.getLsbD n = true := by
  rw [h.diag_of_error_code hk hcode, BitVec.getLsbD_or, hn, Bool.or_true]

/-- A rising bit is the bit of the kind whose mask was set. -/
theorem getLsbD_mask_of_rise {d mask : BitVec 8} {n : Nat} (hclear : d.getLsbD n = false)
    (hset : (d ||| mask).getLsbD n = true) : mask.getLsbD n = true := by
  rwa [BitVec.getLsbD_or, hclear, Bool.false_or] at hset

/-- The four DIAG bits and their kinds (10_state.md R31). -/
theorem ErrorKind.of_diagMask_bit {k : ErrorKind} {n : Nat} (h : k.diagMask.getLsbD n = true) :
    (n = 0 ∧ k = .oversizeWrite) ∨ (n = 1 ∧ k = .outOfRangeRead) ∨ (n = 2 ∧ k = .illegalOp) ∨
      (n = 3 ∧ k = .lengthOverflow) := by
  have hn : n < 8 := BitVec.lt_of_getLsbD h
  revert h
  revert n
  cases k <;> decide

/-- A bit that rises does so with its own event: its response code, or an overlong length for bit 3. -/
theorem DiagEffect.event_of_bit_rises {i : Instr} {s s' : State} {n : Nat} (h : DiagEffect i s s')
    (hclear : s.diag.getLsbD n = false) (hset : s'.diag.getLsbD n = true) :
    (n = 0 ∧ s'.resp.code = .oversizeWrite) ∨ (n = 1 ∧ s'.resp.code = .outOfRangeRead) ∨
      (n = 2 ∧ s'.resp.code = .illegalOp) ∨
      (n = 3 ∧ ∃ b, i = .feed .tx b ∧ s.dfr.state = .length ∧ 251 < b.toNat) := by
  cases h with
  | raised k hk hcode hdiag =>
    rw [hdiag] at hset
    rcases ErrorKind.of_diagMask_bit (getLsbD_mask_of_rise hclear hset) with
      ⟨hn, rfl⟩ | ⟨hn, rfl⟩ | ⟨hn, rfl⟩ | ⟨-, rfl⟩
    · exact .inl ⟨hn, hcode⟩
    · exact .inr (.inl ⟨hn, hcode⟩)
    · exact .inr (.inr (.inl ⟨hn, hcode⟩))
    · simp at hk
  | kept hcode hdiag => rw [hdiag, hclear] at hset; cases hset
  | overflowed b hi hs hb hcode hdiag =>
    rw [hdiag] at hset
    have hn : n = 3 := by simpa using ErrorKind.of_diagMask_bit (getLsbD_mask_of_rise hclear hset)
    exact .inr (.inr (.inr ⟨hn, b, hi, hs, hb⟩))
  | cleared m hi hcode hdiag =>
    rw [hdiag] at hset
    rw [diagClear_le hset] at hclear
    cases hclear

/-- Settles O51: a falling bit is a step's `rst` or CLR_DIAG, and a command's effect on DIAG goes with its event. -/
theorem diagBitsAreSticky : Obligations.DiagBitsAreSticky := by
  refine ⟨fun s s' n => step_bit_falls, fun i s s' h => ?_⟩
  have heffect := exec_diagEffect h
  refine ⟨fun hc => ?_, fun hc => ?_, fun hc => ?_, ?_, fun n => heffect.event_of_bit_rises⟩
  · exact heffect.error_sets_bit (k := .oversizeWrite) nofun hc rfl
  · exact heffect.error_sets_bit (k := .outOfRangeRead) nofun hc rfl
  · exact heffect.error_sets_bit (k := .illegalOp) nofun hc rfl
  · rintro b rfl hs hb
    exact deframerStep_overflow_sets_bit h hs hb

end Sys2Proof.Machine
end

section
/-! PROOFS. Who owns what (10_state.md R26): the commands that write a unit's bytes, move a cursor or change the deframer. -/

namespace Sys2Proof.Machine

theorem Fbu.append?_cur {f g : Fbu} {w v : Nat} (h : f.append? w v = some g) : g.cur = f.cur := by
  unfold Fbu.append? at h
  split at h
  · cases h
  · cases h; rfl

/-- Settles O53: effect by effect, what a command writes is the component it owns. -/
theorem unitsAreWrittenOnlyByTheirOwners : Obligations.UnitsAreWrittenOnlyByTheirOwners := by
  intro i s s' h
  cases exec_effect h with
  | raised k hk => simp
  | answered v => simp
  | cleared m hi => simp
  | reset c d hi =>
    have hwrites : Claims.WritesTx i := .inr ⟨c, d, hi⟩
    exact ⟨by simp, by simp, by simp, fun _ => hwrites, fun _ => .inr ⟨c, d, hi⟩, rfl⟩
  | wrote w v f hi hf =>
    have hwrites : Claims.WritesTx i := .inl (by rw [hi]; rfl)
    exact ⟨by simp, by simp, by simp, fun _ => hwrites, fun hcur => absurd (Fbu.append?_cur hf) hcur, rfl⟩
  | seqRead t w v hi hcur =>
    cases t with
    | tx => exact ⟨by simp, by simp, by simp, by simp, fun _ => .inl hi, rfl⟩
    | rx => exact ⟨by simp, fun _ => .inl hi, by simp, by simp, by simp, rfl⟩
  | fed b s' hi hfed =>
    obtain ⟨htx, hinput, -⟩ := deframerStep_untouched hfed
    exact ⟨fun _ => ⟨b, hi⟩, fun _ => .inr ⟨b, hi⟩, fun _ => ⟨b, hi⟩, by simp [htx], by simp [htx], hinput⟩

end Sys2Proof.Machine
end

section
/-! PROOFS. Stale bytes (10_state.md R25). `SameButStale` is a simulation: every operation on two states so related answers two
states so related, with one response; so no run tells them apart. -/

namespace Sys2Proof.Machine

/-! ### Two units with one frame -/

theorem Fbu.SameFrame.blen_eq {f g : Fbu} (h : f.SameFrame g) : f.blen = g.blen := (Fbu.raw_eq_iff.1 h.1).1

theorem Fbu.SameFrame.read_eq {f g : Fbu} (h : f.SameFrame g) {a : Nat} (ha : a < f.blen) :
    Memory.read f.buf a = Memory.read g.buf a := (Fbu.raw_eq_iff.1 h.1).2 a ha

theorem Fbu.SameFrame.lenByte_eq {f g : Fbu} (h : f.SameFrame g) : f.lenByte = g.lenByte :=
  h.read_eq (Nat.lt_of_lt_of_le (by omega) f.four_le_blen)

theorem Fbu.SameFrame.readLE_eq {f g : Fbu} (h : f.SameFrame g) {a n : Nat} (ha : a + n ≤ f.blen) :
    Memory.readLE f.buf a n = Memory.readLE g.buf a n :=
  Memory.readLE_congr fun _ _ => h.read_eq (by omega)

/-- A base64 character within the length of R167 is made of the frame's bytes: a short last group reads no byte past it. -/
theorem Fbu.SameFrame.b64At_eq {f g : Fbu} (h : f.SameFrame g) {k : Nat} (hk : k < b64Length f.blen) :
    f.b64At k = g.b64At k := by
  have hj : 3 * (k / 4) < f.blen := by
    unfold b64Length at hk
    omega
  have h0 : Memory.read f.buf (3 * (k / 4)) = Memory.read g.buf (3 * (k / 4)) := h.read_eq hj
  have later (i : Nat) (d : Byte) :
      (if i + 1 ≤ f.blen - 3 * (k / 4) then Memory.read f.buf (3 * (k / 4) + i) else d) =
        if i + 1 ≤ f.blen - 3 * (k / 4) then Memory.read g.buf (3 * (k / 4) + i) else d := by
    split
    · exact h.read_eq (by omega)
    · rfl
  simp only [Fbu.b64At, ← h.blen_eq, h0, later 1, later 2]

theorem Fbu.SameFrame.frameReset {f g : Fbu} (hf : f.Inv) (hg : g.Inv) (c d : Byte) :
    (f.frameReset c d).SameFrame (g.frameReset c d) :=
  ⟨(Fbu.frameReset_raw hf.1 c d).trans (Fbu.frameReset_raw hg.1 c d).symm, rfl⟩

/-- An append writes the bytes between the old and the new end, so the longer frames are equal again. -/
theorem Fbu.SameFrame.append {f g : Fbu} (h : f.SameFrame g) (hf : f.Inv) (hg : g.Inv) {w : Nat} (v : Nat)
    (hw : f.blen + w ≤ 255) :
    ∃ f' g', f.append? w v = some f' ∧ g.append? w v = some g' ∧ f'.SameFrame g' := by
  have hbl := h.blen_eq
  obtain ⟨f', hf', -, hcur, hlen, hnew, hold⟩ := Fbu.append?_spec (v := v) hf.1 hw
  obtain ⟨g', hg', -, hcur', hlen', hnew', hold'⟩ := Fbu.append?_spec (v := v) hg.1 (hbl ▸ hw)
  have hlenEq : f'.lenByte = g'.lenByte := BitVec.eq_of_toNat_eq (by rw [hlen, hlen', h.lenByte_eq])
  have hblen' : f'.blen = f.blen + w := by rw [Fbu.blen_eq, hlen, Fbu.blen_eq]; omega
  refine ⟨f', g', hf', hg', Fbu.raw_eq_iff.2 ⟨by rw [Fbu.blen_eq, hlenEq, Fbu.blen_eq], fun a ha => ?_⟩,
    hcur.trans (h.2.trans hcur'.symm)⟩
  by_cases h3 : a = 3
  · subst h3
    exact hlenEq
  by_cases hlt : a < f.blen
  · rw [hold a h3 (.inl hlt), hold' a h3 (.inl (hbl ▸ hlt)), h.read_eq hlt]
  · obtain ⟨i, rfl⟩ := Nat.exists_eq_add_of_le (Nat.le_of_not_lt hlt)
    have hi : i < w := by omega
    have hg := hnew' i hi
    rw [← hbl] at hg
    rw [hnew i hi, hg]

theorem Fbu.SameFrame.advance {f g : Fbu} (h : f.SameFrame g) (n : BitVec 8) :
    ({ f with cur := f.cur + n } : Fbu).SameFrame { g with cur := g.cur + n } :=
  ⟨h.1, congrArg (· + n) h.2⟩

/-! ### Two states that differ in stale bytes -/

theorem State.SameButStale.fbu {s t : State} (h : s.SameButStale t) (u : Target) : (s.fbu u).SameFrame (t.fbu u) := by
  obtain ⟨htx, hrx, -⟩ := h
  cases u
  · exact htx
  · exact hrx

theorem State.SameButStale.dfr_eq {s t : State} (h : s.SameButStale t) : s.dfr = t.dfr := by
  obtain ⟨-, -, hdfr, -⟩ := h
  exact hdfr

theorem State.SameButStale.diag_eq {s t : State} (h : s.SameButStale t) : s.diag = t.diag := by
  obtain ⟨-, -, -, hdiag, -⟩ := h
  exact hdiag

theorem State.SameButStale.setFbu {s t : State} (h : s.SameButStale t) (u : Target) {f g : Fbu} (hfg : f.SameFrame g) :
    (s.setFbu u f).SameButStale (t.setFbu u g) := by
  obtain ⟨htx, hrx, hrest⟩ := h
  cases u
  · exact ⟨hfg, hrx, hrest⟩
  · exact ⟨htx, hfg, hrest⟩

theorem State.SameButStale.dfr_update {s t : State} (h : s.SameButStale t) (update : Dfr → Dfr) :
    ({ s with dfr := update s.dfr } : State).SameButStale { t with dfr := update t.dfr } := by
  obtain ⟨htx, hrx, hdfr, hrest⟩ := h
  exact ⟨htx, hrx, congrArg update hdfr, hrest⟩

theorem State.SameButStale.diag_update {s t : State} (h : s.SameButStale t) (update : BitVec 8 → BitVec 8) :
    ({ s with diag := update s.diag } : State).SameButStale { t with diag := update t.diag } := by
  obtain ⟨htx, hrx, hdfr, hdiag, hrest⟩ := h
  exact ⟨htx, hrx, hdfr, congrArg update hdiag, hrest⟩

theorem State.SameButStale.respond {s t : State} (h : s.SameButStale t) (code : RespCode) (v : Word) (done : Bool) :
    (Machine.respond code v done s).SameButStale (Machine.respond code v done t) := by
  obtain ⟨htx, hrx, hdfr, hdiag, -, -, hin⟩ := h
  exact ⟨htx, hrx, hdfr, hdiag, rfl, rfl, hin⟩

theorem State.SameButStale.raise {s t : State} (h : s.SameButStale t) (k : ErrorKind) :
    (Machine.raise k s).SameButStale (Machine.raise k t) :=
  (h.diag_update (diagSet k)).respond k.code 0 false

/-- Both answer a next state, and the two next states differ at most in stale bytes. -/
def SameAnswer (o p : Host.Outcome State Fault Refusal) : Prop :=
  ∃ s t, o = .next s ∧ p = .next t ∧ s.SameButStale t

theorem SameAnswer.next {s t : State} (h : s.SameButStale t) : SameAnswer (.next s) (.next t) := ⟨s, t, rfl, rfl, h⟩

/-! ### Every operation answers the same -/

section Simulation

variable {s t : State} (hs : s.Inv) (ht : t.Inv) (h : s.SameButStale t)
include h

/-- An OK response with one result. -/
theorem answer_same {v v' : Word} (hv : v = v') :
    SameAnswer (.next (respond .ok v false s)) (.next (respond .ok v' false t)) := by
  rw [hv]
  exact .next (h.respond .ok v' false)

theorem onTxOnly_same {effect effect' : State → Host.Outcome State Fault Refusal} (u : Target)
    (heffect : SameAnswer (effect s) (effect' t)) : SameAnswer (onTxOnly u effect s) (onTxOnly u effect' t) := by
  cases u
  · exact heffect
  · exact .next (h.raise .illegalOp)

theorem seqRead_same (u : Target) (w : Nat) (form : Nat → Word) :
    SameAnswer (seqRead u w form s) (seqRead u w form t) := by
  have hu := h.fbu u
  have hbl := hu.blen_eq
  have hcur := congrArg BitVec.toNat hu.2
  by_cases hw : (s.fbu u).cur.toNat + w ≤ (s.fbu u).blen
  · rw [seqRead_next hw, seqRead_next (hbl ▸ hcur ▸ hw), hu.readLE_eq hw, hcur]
    exact .next ((h.setFbu u (hu.advance _)).respond _ _ _)
  · rw [seqRead_rejected (by omega), seqRead_rejected (by omega)]
    exact .next (h.raise _)

theorem offRead_same (u : Target) (off w : Nat) (form : Nat → Word) :
    SameAnswer (offRead u off w form s) (offRead u off w form t) := by
  have hu := h.fbu u
  have hbl := hu.blen_eq
  by_cases hw : off + w ≤ (s.fbu u).blen
  · rw [offRead_next hw, offRead_next (hbl ▸ hw), hu.readLE_eq hw]
    exact .next (h.respond _ _ _)
  · rw [offRead_rejected (by omega), offRead_rejected (by omega)]
    exact .next (h.raise _)

theorem execRdB64_same (u : Target) (k : BitVec 16) : SameAnswer (execRdB64 u k s) (execRdB64 u k t) := by
  have hu := h.fbu u
  have hbl := hu.blen_eq
  by_cases hk : k.toNat < b64Length (s.fbu u).blen
  · rw [b64_next hk, b64_next (hbl ▸ hk), hu.b64At_eq hk]
    exact .next (h.respond _ _ _)
  · rw [b64_rejected (by omega), b64_rejected (hbl ▸ Nat.le_of_not_lt hk)]
    exact .next (h.raise _)

/-- A header byte is a byte of every frame. -/
theorem headerRead_same (u : Target) {off : Nat} (hoff : off < 4) : SameAnswer (headerRead u off s) (headerRead u off t) := by
  have hbyte := (h.fbu u).read_eq (Nat.lt_of_lt_of_le hoff (Fbu.four_le_blen _))
  rw [headerRead, headerRead, hbyte]
  exact .next (h.respond _ _ _)

theorem execRdStatus_same (u : Target) : SameAnswer (execRdStatus u s) (execRdStatus u t) :=
  onTxOnly_same h u (answer_same h (by rw [h.dfr_eq]))

theorem execRdDiag_same (u : Target) : SameAnswer (execRdDiag u s) (execRdDiag u t) :=
  onTxOnly_same h u (answer_same h (by rw [h.diag_eq]))

theorem execClrDiag_same (u : Target) (m : BitVec 4) : SameAnswer (execClrDiag u m s) (execClrDiag u m t) :=
  onTxOnly_same h u (answer_same (h.diag_update (diagClear m)) rfl)

theorem feedRespond_same (done : Bool) : SameAnswer (feedRespond done s) (feedRespond done t) :=
  .next (h.respond _ _ _)

theorem feedStart_same (b : Byte) : SameAnswer (feedStart b s) (feedStart b t) := by
  unfold feedStart
  split
  · exact feedRespond_same (h.dfr_update fun d => { d with state := .device }) false
  · exact feedRespond_same h false

include hs ht

theorem execReset_same (u : Target) (c d : Byte) : SameAnswer (execReset u c d s) (execReset u c d t) :=
  onTxOnly_same h u (answer_same (h.setFbu .tx (.frameReset hs.1 ht.1 c d)) rfl)

theorem append_same (u : Target) (w v : Nat) : SameAnswer (append u w v s) (append u w v t) := by
  have hu := h.fbu u
  have hbl := hu.blen_eq
  by_cases hw : (s.fbu u).blen + w ≤ 255
  · obtain ⟨f, g, hf, hg, hfg⟩ := hu.append (hs.fbu u) (ht.fbu u) v hw
    rw [append, append, hf, hg]
    exact .next ((h.setFbu u hfg).respond _ _ _)
  · rw [append, append, Fbu.append?_none (by omega), Fbu.append?_none (by omega)]
    exact .next (h.raise _)

theorem feedData_same (b : Byte) : SameAnswer (feedData b s) (feedData b t) := by
  have hrx := h.fbu .rx
  have hbl : s.rx.blen = t.rx.blen := hrx.blen_eq
  have hdfr := h.dfr_eq
  by_cases hw : s.rx.blen + 1 ≤ 255
  · obtain ⟨f, g, hf, hg, hfg⟩ := Fbu.SameFrame.append hrx hs.2.1 ht.2.1 b.toNat hw
    have happended := h.setFbu .rx hfg
    simp only [fbu_rx] at hf hg
    by_cases hlen : f.lenByte = s.dfr.capLen
    · have hlen' : g.lenByte = t.dfr.capLen := by rw [← hfg.lenByte_eq, hlen, hdfr]
      simp only [feedData, hf, hg, if_pos hlen, if_pos hlen']
      exact feedRespond_same (happended.dfr_update fun d => { d with state := .start }) true
    · have hlen' : g.lenByte ≠ t.dfr.capLen := by rwa [← hfg.lenByte_eq, ← hdfr]
      simp only [feedData, hf, hg, if_neg hlen, if_neg hlen']
      exact feedRespond_same happended false
  · simp only [feedData, Fbu.append?_none (Nat.lt_of_not_le hw), Fbu.append?_none (Nat.lt_of_not_le (hbl ▸ hw))]
    exact .next (h.raise .oversizeWrite)

theorem feedLength_same (b : Byte) : SameAnswer (feedLength b s) (feedLength b t) := by
  have hdfr := h.dfr_eq
  have hreset : (s.rx.frameReset s.dfr.capCmd s.dfr.capDev).SameFrame (t.rx.frameReset t.dfr.capCmd t.dfr.capDev) := by
    rw [hdfr]
    exact .frameReset hs.2.1 ht.2.1 _ _
  have captured (st : DfrState) := (h.setFbu .rx hreset).dfr_update fun d => { d with capLen := b, state := st }
  unfold feedLength
  split
  · exact feedRespond_same (captured .start) true
  · split
    · exact feedRespond_same (captured .data) false
    · exact feedRespond_same ((captured .start).diag_update (diagSet .lengthOverflow)) false

/-- The deframer's registers are equal, so both states take the same arm. -/
theorem deframerStep_same (b : Byte) : SameAnswer (deframerStep b s) (deframerStep b t) := by
  unfold deframerStep
  rw [← h.dfr_eq]
  cases s.dfr.state with
  | start => exact feedStart_same h b
  | device => exact feedRespond_same (h.dfr_update fun d => { d with capDev := b, state := .command }) false
  | command => exact feedRespond_same (h.dfr_update fun d => { d with capCmd := b, state := .length }) false
  | length => exact feedLength_same hs ht h b
  | data => exact feedData_same hs ht h b

/-- Every command answers the same on two states that differ at most in stale bytes. -/
theorem exec_same (i : Instr) : SameAnswer (exec i s) (exec i t) := by
  have write (u : Target) (w v : Nat) :
      SameAnswer (onTxOnly u (append .tx w v) s) (onTxOnly u (append .tx w v) t) :=
    onTxOnly_same h u (append_same hs ht h .tx w v)
  cases i with
  | reset u c d => exact execReset_same hs ht h u c d
  | wrU8 u v | wrU16 u v | wrU32 u v | wrI8 u v | wrI16 u v | wrI32 u v | wrF32 u v | wrF64 u v => exact write u _ _
  | rdU8 u | rdU16 u | rdU32 u | rdI8 u | rdI16 u | rdI32 u | rdF32 u | rdF64 u => exact seqRead_same h u _ _
  | rdU8At u off | rdU32At u off | rdF64At u off => exact offRead_same h u _ _ _
  | getDev u | getCmd u | getLen u => exact headerRead_same h u (by omega)
  | rdB64 u k => exact execRdB64_same h u k
  | feed u b => exact onTxOnly_same h u (deframerStep_same hs ht h b)
  | rdStatus u => exact execRdStatus_same h u
  | rdDiag u => exact execRdDiag_same h u
  | clrDiag u m => exact execClrDiag_same h u m

theorem transact_same (cmd : Cmd) (arg : Word) : SameAnswer (transact cmd arg s) (transact cmd arg t) := by
  cases hdec : decode cmd arg with
  | ok i =>
    rw [transact_of_decode_ok hdec, transact_of_decode_ok hdec]
    exact exec_same hs ht h i
  | error r =>
    rw [transact_of_decode_error hdec, transact_of_decode_error hdec]
    exact .next (h.raise .illegalOp)

theorem streamByte_same (b : Byte) : SameAnswer (streamByte b s) (streamByte b t) := by
  obtain ⟨s', t', hs', ht', htx, hrx, hdfr, hdiag, hresp, -, hin⟩ := deframerStep_same hs ht h b
  rw [streamByte_of_deframerStep hs', streamByte_of_deframerStep ht']
  exact .next ⟨htx, hrx, hdfr, hdiag, hresp, congrArg Resp.done hresp, hin⟩

/-- One step on two states that differ at most in stale bytes: the same presentation, the same answer. -/
theorem step_same : SameAnswer (step s) (step t) := by
  have hsTaken (rest : List Input) := hs.of_outputs s.resp s.frameDone rest
  have htTaken (rest : List Input) := ht.of_outputs t.resp t.frameDone rest
  have hsame := h
  obtain ⟨htx, hrx, hdfr, hdiag, hresp, hdone, hin⟩ := h
  have taken (rest : List Input) : ({ s with input := rest } : State).SameButStale { t with input := rest } :=
    ⟨htx, hrx, hdfr, hdiag, hresp, hdone, rfl⟩
  cases hs' : s.input with
  | nil =>
    rw [step_of_nil hs', step_of_nil (hin ▸ hs')]
    exact .next hsame
  | cons presented rest =>
    have ht' := hin ▸ hs'
    cases presented with
    | host cmd arg =>
      rw [step_of_host hs', step_of_host ht']
      exact transact_same (hsTaken rest) (htTaken rest) (taken rest) cmd arg
    | stream b =>
      rw [step_of_stream hs', step_of_stream ht']
      exact streamByte_same (hsTaken rest) (htTaken rest) (taken rest) b
    | both b cmd arg =>
      rw [step_of_both hs', step_of_both ht']
      exact streamByte_same (hsTaken _) (htTaken _) (taken _) b
    | rst =>
      rw [step_of_rst hs', step_of_rst ht']
      exact .next ⟨⟨rfl, rfl⟩, ⟨rfl, rfl⟩, rfl, rfl, rfl, rfl, rfl⟩

end Simulation

/-- Settles O54, by induction on the run's length: one step keeps the simulation, and the invariant with it. -/
theorem staleBytesAreUnobservable : Obligations.StaleBytesAreUnobservable := by
  intro n
  induction n with
  | zero => exact fun _ _ _ _ _ => rfl
  | succ n ih =>
    intro s t hs ht h
    obtain ⟨s', t', hs', ht', h'⟩ := step_same hs ht h
    have hrest := ih s' t' (step_inv hs hs') (step_inv ht ht') h'
    obtain ⟨-, -, -, -, hresp, hdone, -⟩ := h'
    rw [observe_succ hs', observe_succ ht', hresp, hdone, hrest]

end Sys2Proof.Machine
end

section
/-! PROOFS. The statements of 20_memory.md: the order of a same-cycle pair, and accesses of different widths to the same bytes. -/

namespace Sys2Proof.Machine

open Sys2Proof.Claims

/-! ### The same-cycle pair (R60) -/

/-- A stream byte takes nothing else that is presented. -/
theorem streamByte_input (b : Byte) (s : State) : ∃ s', streamByte b s = .next s' ∧ s'.input = s.input := by
  obtain ⟨fed, hfed⟩ := deframerStep_proceeds b s
  obtain ⟨-, hinput, -⟩ := deframerStep_untouched hfed
  exact ⟨_, streamByte_of_deframerStep hfed, hinput⟩

/-- Settles O8: both steps are the stream byte's, with the host command presented next. -/
theorem sameCyclePairIsStreamThenHost : Obligations.SameCyclePairIsStreamThenHost := by
  intro s b cmd arg rest hin
  have hpair : step s = streamByte b { s with input := .host cmd arg :: rest } := step_of_both hin
  have hbyte : step { s with input := .stream b :: .host cmd arg :: rest } =
      streamByte b { s with input := .host cmd arg :: rest } := step_of_stream rfl
  obtain ⟨s', hnext, hinput⟩ := streamByte_input b { s with input := .host cmd arg :: rest }
  exact ⟨hpair.trans hbyte.symm, s', hpair.trans hnext, hinput⟩

/-! ### Little-endian bytes seen at another width (R52, R53) -/

/-- An OK response with DONE 0 changes nothing but the outputs. -/
theorem respond_ok_eq_answered (v : Word) (s : State) : respond .ok v false s = answered v s := rfl

/-- Byte `i` of a word, as a little-endian store makes it. -/
theorem ofNat_shiftRight_toNat {n : Nat} (v : BitVec n) (i : Nat) :
    BitVec.ofNat 8 (v.toNat >>> (8 * i)) = v.extractLsb' (8 * i) 8 := rfl

/-- An append that fits answers OK with RDATA 0 (41_writes.md R110). -/
theorem append_next {t : Target} {w v : Nat} {s : State} {f : Fbu} (hf : (s.fbu t).append? w v = some f) :
    append t w v s = .next (answered 0 (s.setFbu t f)) := by
  simp only [append, hf, respond_ok_eq_answered]

/-- An offset read of bytes that are those of `v` answers `v` (42_reads.md R140). -/
theorem offRead_of_bytes {t : Target} {off w : Nat} {s : State} (v : BitVec (8 * w)) (hfits : off + w ≤ (s.fbu t).blen)
    (hbytes : ∀ i, i < w → Memory.read (s.fbu t).buf (off + i) = v.extractLsb' (8 * i) 8) :
    offRead t off w resultZext s = .next (answered (v.setWidth 64) s) := by
  have hvalue : Memory.readLE (s.fbu t).buf off w = v.toNat := by
    rw [Memory.readLE_of_bytes (v := v.toNat) hbytes, Nat.mod_eq_of_lt v.isLt]
  rw [offRead_next hfits, respond_ok_eq_answered, hvalue, resultZext, BitVec.ofNat_toNat]

/-- A word appended to `TX` and then read as a single byte at its place (20_memory.md R53). -/
theorem exec_rdU8At_of_append {s : State} {f : Fbu} {w i : Nat} (v : BitVec (8 * w)) (hinv : s.tx.Inv)
    (hf : s.tx.append? w v.toNat = some f) (hi : i < w) (r : Word) :
    exec (.rdU8At .tx (BitVec.ofNat 16 (s.tx.blen + i))) (answered r (s.setFbu .tx f)) =
      .next (answered ((v.extractLsb' (8 * i) 8).setWidth 64) (answered r (s.setFbu .tx f))) := by
  have hfits := Fbu.append?_some_le hf
  obtain ⟨g, hg, -, -, hlen, hnew, -⟩ := Fbu.append?_spec (v := v.toNat) hinv.1 hfits
  obtain rfl : g = f := Option.some.inj (hg.symm.trans hf)
  have hblen : g.blen = s.tx.blen + w := by rw [Fbu.blen_eq, hlen, Fbu.blen_eq, Nat.add_assoc]
  have hoff : (BitVec.ofNat 16 (s.tx.blen + i)).toNat = s.tx.blen + i :=
    (BitVec.toNat_ofNat _ _).trans (Nat.mod_eq_of_lt (by omega))
  change offRead .tx (BitVec.ofNat 16 (s.tx.blen + i)).toNat 1 resultZext _ = _
  rw [hoff]
  refine offRead_of_bytes (w := 1) (v.extractLsb' (8 * i) 8) ?_ fun j hj => ?_
  · change s.tx.blen + i + 1 ≤ g.blen
    omega
  · obtain rfl : j = 0 := by omega
    change Memory.read g.buf (s.tx.blen + i) = _
    rw [hnew i hi, ofNat_shiftRight_toNat]
    simp

/-- Settles O37: a word read over its little-endian bytes is an offset read of them, and a word written is read back byte by byte. -/
theorem mixedWidthAccessSeesLittleEndianBytes : Obligations.MixedWidthAccessSeesLittleEndianBytes := by
  refine ⟨fun s t off v _ hfits hbytes => offRead_of_bytes (w := 4) v hfits hbytes, fun s v hinv hfits => ?_⟩
  obtain ⟨f, hf, -⟩ := Fbu.append?_spec (v := v.toNat) hinv.1 hfits
  exact ⟨_, append_next hf, fun i hi => exec_rdU8At_of_append (w := 4) v hinv hf hi 0⟩

end Sys2Proof.Machine
end

section
/-! PROOFS. The statements of 30_encoding.md about the decoder: what the opcode map gives, which words are accepted, and that
the decoder and the encoder undo each other. -/

namespace Sys2Proof

open Sys2Proof.Claims

/-! ### The opcode map (R73) and the operand slices (R76) -/

/-- The opcode map gives a command back from its own opcode, target and operand word. -/
theorem decodeOp_of_fields (i : Instr) : decodeOp i.opcode i.target i.arg = some i := by
  cases i with
  | reset t c d =>
    obtain ⟨hc, hd⟩ := argSlice_reset c d
    exact congrArg₂ (fun x y => some (Instr.reset t x y)) hc hd
  | wrF64 t v => exact congrArg (fun x => some (Instr.wrF64 t x)) BitVec.extractLsb'_eq_self
  | wrU8 t v | wrU16 t v | wrU32 t v | wrI8 t v | wrI16 t v | wrI32 t v | wrF32 t v | rdU8At t v | rdU32At t v
  | rdF64At t v | rdB64 t v | feed t v | clrDiag t v =>
    have hslice := argSlice_setWidth v (by omega)
    simp [Instr.opcode, Instr.target, Instr.arg, decodeOp, hslice]
  | rdU8 t | rdU16 t | rdU32 t | rdI8 t | rdI16 t | rdI32 t | rdF32 t | rdF64 t => rfl
  | getDev t | getCmd t | getLen t | rdStatus t | rdDiag t => rfl

/-- What the opcode map gives has the opcode and the target it was given. -/
theorem decodeOp_some {op : BitVec 8} {t : Target} {arg : Word} {i : Instr} (h : decodeOp op t arg = some i) :
    i.opcode = op ∧ i.target = t := by
  unfold decodeOp at h
  split at h <;> cases h <;> exact ⟨rfl, rfl⟩

/-- The operand word of what the opcode map gives is ARG with the bits that R76 does not name cleared. -/
theorem decodeOp_some_arg {op : BitVec 8} {t : Target} {arg : Word} {i : Instr} (h : decodeOp op t arg = some i) :
    i.arg = arg &&& operandMask i := by
  obtain ⟨rfl, rfl⟩ := decodeOp_some h
  cases i with
  | reset t c d =>
    cases h
    exact (congrArg (BitVec.setWidth 64) (argSlice_append arg)).trans (setWidth_argSlice arg 16)
  | wrU8 t v | wrI8 t v | feed t v => cases h; exact setWidth_argSlice arg 8
  | wrU16 t v | wrI16 t v | rdU8At t v | rdU32At t v | rdF64At t v | rdB64 t v => cases h; exact setWidth_argSlice arg 16
  | wrU32 t v | wrI32 t v | wrF32 t v => cases h; exact setWidth_argSlice arg 32
  | wrF64 t v => cases h; exact BitVec.extractLsb'_eq_self.trans BitVec.and_allOnes.symm
  | clrDiag t m => cases h; exact setWidth_argSlice arg 4
  | rdU8 t | rdU16 t | rdU32 t | rdI8 t | rdI16 t | rdI32 t | rdF32 t | rdF64 t => exact BitVec.and_zero.symm
  | getDev t | getCmd t | getLen t | rdStatus t | rdDiag t => exact BitVec.and_zero.symm

/-- Every opcode listed in R73 is assigned, whatever the target and ARG. -/
theorem decodeOp_of_listed {op : BitVec 8} (h : op ∈ anyTargetOps ∨ op ∈ txOnlyOps) (t : Target) (arg : Word) :
    ∃ i, decodeOp op t arg = some i := by
  have hall : ∀ o ∈ anyTargetOps ++ txOnlyOps, (decodeOp o t arg).isSome = true := by
    simp [anyTargetOps, txOnlyOps, decodeOp]
  exact Option.isSome_iff_exists.1 (hall op (List.mem_append.2 h))

/-! ### Legality (R75) -/

/-- The `t` column of R73 is "0" for exactly the commands that are `txOnly`, and "any" for the others. -/
theorem opcode_mem_txOnlyOps (i : Instr) : i.opcode ∈ txOnlyOps ↔ i.txOnly = true := by
  have hlist : txOnlyOps.contains i.opcode = i.txOnly := by cases i <;> rfl
  rw [← hlist, List.contains_iff_mem]

theorem opcode_mem_anyTargetOps (i : Instr) : i.opcode ∈ anyTargetOps ↔ i.txOnly = false := by
  have hlist : anyTargetOps.contains i.opcode = !i.txOnly := by cases i <;> rfl
  rw [← List.contains_iff_mem, hlist, Bool.not_eq_true']

/-- Well-formedness of a term is what R75 condition 3 leaves of its opcode and target. -/
theorem wellFormed_iff_opcode (i : Instr) :
    WellFormed i ↔ i.opcode ∈ anyTargetOps ∨ i.opcode ∈ txOnlyOps ∧ i.target = .tx := by
  rw [opcode_mem_anyTargetOps, opcode_mem_txOnlyOps, WellFormed, Instr.wellFormed]
  cases i.txOnly <;> simp

theorem not_wellFormed_iff (i : Instr) : ¬ WellFormed i ↔ i.txOnly = true ∧ i.target = .rx := by
  rw [WellFormed, Instr.wellFormed]
  cases i.txOnly <;> cases i.target <;> decide

theorem cmdTarget_eq_tx (cmd : Cmd) : cmdTarget cmd = .tx ↔ cmd.extractLsb' 8 1 = 0 := by
  unfold cmdTarget
  split
  · exact iff_of_true rfl ‹_›
  · exact iff_of_false nofun ‹_›

/-- `legalCmd` in the decoder's fields of a command word (R71). -/
theorem legalCmd_iff (cmd : Cmd) :
    legalCmd cmd = true ↔
      cmdRsv cmd = 0 ∧ (cmdOp cmd ∈ anyTargetOps ∨ cmdOp cmd ∈ txOnlyOps ∧ cmdTarget cmd = .tx) := by
  rw [cmdTarget_eq_tx]
  simp [legalCmd, cmdRsv, cmdOp]

/-- A word is illegal by the three conditions of R75 exactly when `legalCmd` refuses it. -/
theorem not_illegal_iff (cmd : Cmd) : ¬ Illegal cmd ↔ legalCmd cmd = true := by
  have hbit : ∀ b : BitVec 1, b = 1 ↔ ¬ b = 0 := by decide
  have hcolumns : cmd.extractLsb' 0 8 ∈ txOnlyOps → cmd.extractLsb' 0 8 ∉ anyTargetOps :=
    (by decide : ∀ op ∈ txOnlyOps, op ∉ anyTargetOps) _
  rw [legalCmd_iff, cmdTarget_eq_tx, Illegal, hbit, cmdRsv, cmdOp]
  tauto

/-- The decoder accepts a word exactly when its reserved bits are 0 and the opcode map gives a well-formed command. -/
theorem decode_ok_iff {cmd : Cmd} {arg : Word} {i : Instr} :
    decode cmd arg = .ok i ↔ cmdRsv cmd = 0 ∧ decodeOp (cmdOp cmd) (cmdTarget cmd) arg = some i ∧ WellFormed i := by
  refine ⟨decode_ok, fun ⟨hrsv, hop, hwf⟩ => ?_⟩
  rw [← cmdWord_of_fields hrsv]
  exact decode_cmdWord _ _ arg hop hwf

/-- A word decodes, whatever its ARG, exactly when it is legal. -/
theorem decode_ok_iff_legalCmd (cmd : Cmd) (arg : Word) : (∃ i, decode cmd arg = .ok i) ↔ legalCmd cmd = true := by
  rw [legalCmd_iff]
  constructor
  · rintro ⟨i, h⟩
    obtain ⟨hrsv, hop, hwf⟩ := decode_ok h
    obtain ⟨hopcode, htarget⟩ := decodeOp_some hop
    rw [wellFormed_iff_opcode, hopcode, htarget] at hwf
    exact ⟨hrsv, hwf⟩
  · rintro ⟨hrsv, hlegal⟩
    obtain ⟨i, hop⟩ := decodeOp_of_listed (hlegal.imp_right And.left) (cmdTarget cmd) arg
    obtain ⟨hopcode, htarget⟩ := decodeOp_some hop
    rw [← hopcode, ← htarget, ← wellFormed_iff_opcode] at hlegal
    exact ⟨i, decode_ok_iff.2 ⟨hrsv, hop, hlegal⟩⟩

theorem decode_error_of_illegal {cmd : Cmd} (h : Illegal cmd) (arg : Word) : ∃ r, decode cmd arg = .error r := by
  cases hdec : decode cmd arg with
  | ok i => exact absurd h ((not_illegal_iff cmd).2 ((decode_ok_iff_legalCmd cmd arg).1 ⟨i, hdec⟩))
  | error r => exact ⟨r, rfl⟩

/-! ### The obligations about the decoder and the encoder -/

/-- Settles O13: the fields of the encoded word are the command's own, and the opcode map gives it back from them. -/
theorem decodeInvertsEncode : Obligations.DecodeInvertsEncode :=
  fun i hwf => decode_cmdWord i.target i.opcode i.arg (decodeOp_of_fields i) hwf

/-- Settles O14: the decoded command keeps the word's target and opcode and the named bits of ARG. -/
theorem encodeInvertsDecode : Obligations.EncodeInvertsDecode := by
  intro cmd arg i h
  obtain ⟨hrsv, hop, -⟩ := decode_ok h
  obtain ⟨hopcode, htarget⟩ := decodeOp_some hop
  rw [encode, hopcode, htarget, cmdWord_of_fields hrsv, decodeOp_some_arg hop]

/-- Settles O10: legality of a word is well-formedness of the term the opcode map gives. -/
theorem decodesExactlyTheLegalWords : Obligations.DecodesExactlyTheLegalWords := by
  refine fun cmd arg => ⟨decode_ok_iff_legalCmd cmd arg, fun i h => ?_⟩
  obtain ⟨-, -, hwf⟩ := decode_ok h
  exact hwf

/-- Settles O12: each word is closed, so the decoder computes its answer. -/
theorem decodesTheSpecsWords : Obligations.DecodesTheSpecsWords := by
  unfold Obligations.DecodesTheSpecsWords
  decide

/-- The sub-fields of R72, for every command that has them, are those of its opcode. -/
theorem subFields_eq_opcode {i : Instr} (h : (subFields i).isSome = true) :
    subFields i = some (opClass i.opcode, opType i.opcode, opWidth i.opcode) := by
  cases i with
  | wrU8 t v | wrU16 t v | wrU32 t v | wrI8 t v | wrI16 t v | wrI32 t v | wrF32 t v | wrF64 t v
  | rdU8 t | rdU16 t | rdU32 t | rdI8 t | rdI16 t | rdI32 t | rdF32 t | rdF64 t
  | rdU8At t off | rdU32At t off | rdF64At t off =>
    simp only [subFields, Instr.opcode]
    decide
  | reset t c d => cases h
  | getDev t | getCmd t | getLen t | rdStatus t | rdDiag t => cases h
  | rdB64 t k | feed t k | clrDiag t k => cases h

/-- Settles O15: `subFields` reads the opcode's slices, and the accessors' opcodes are 0x41 to 0x43. -/
theorem opcodeSubFieldsGiveClassTypeAndWidth : Obligations.OpcodeSubFieldsGiveClassTypeAndWidth := by
  constructor
  · intro i c ty w h
    have hsub := subFields_eq_opcode (Option.isSome_of_eq_some h)
    rw [h] at hsub
    simpa [eq_comm] using hsub
  · intro t
    simp only [Instr.opcode]
    decide

end Sys2Proof
end

section
/-! PROOFS. The statements of 30_encoding.md about illegal commands: IllegalOp is raised, and nothing else happens. -/

namespace Sys2Proof.Machine

open Sys2Proof.Claims

/-- Raising IllegalOp is the rejection of 60_exceptions.md R225. -/
theorem raise_illegalOp_eq_rejected (s : State) : raise .illegalOp s = rejected .illegalOp 0x04 s := rfl

/-- A command whose `t` column is "0" opens with the legality check, so on `RX` it only raises IllegalOp. -/
theorem exec_txOnly_of_rx {i : Instr} (htx : i.txOnly = true) (hrx : i.target = .rx) (s : State) :
    exec i s = .next (raise .illegalOp s) := by
  cases i with
  | reset t c d => cases hrx; rfl
  | wrU8 t v | wrU16 t v | wrU32 t v | wrI8 t v | wrI16 t v | wrI32 t v | wrF32 t v | wrF64 t v => cases hrx; rfl
  | feed t b | clrDiag t b => cases hrx; rfl
  | rdStatus t | rdDiag t => cases hrx; rfl
  | rdU8 t | rdU16 t | rdU32 t | rdI8 t | rdI16 t | rdI32 t | rdF32 t | rdF64 t => cases htx
  | rdU8At t off | rdU32At t off | rdF64At t off | rdB64 t off => cases htx
  | getDev t | getCmd t | getLen t => cases htx

/-- Settles O11: an ill-formed term is a `txOnly` command on `RX`. -/
theorem illFormedCommandRaisesIllegalOp : Obligations.IllFormedCommandRaisesIllegalOp := by
  intro i s h
  obtain ⟨htx, hrx⟩ := (not_wellFormed_iff i).1 h
  rw [exec_txOnly_of_rx htx hrx, raise_illegalOp_eq_rejected]

/-- Settles O9: an illegal word decodes to an error, which the transaction answers by raising IllegalOp; any other is legal. -/
theorem illegalCommandOnlyReports : Obligations.IllegalCommandOnlyReports := by
  refine ⟨rfl, fun s cmd arg rest hin hill => ?_, fun cmd arg hleg => ?_⟩
  · obtain ⟨r, hdec⟩ := decode_error_of_illegal hill arg
    rw [step_of_host hin, transact_of_decode_error hdec, raise_illegalOp_eq_rejected]
  · exact (decode_ok_iff_legalCmd cmd arg).2 ((not_illegal_iff cmd).1 hleg)

end Sys2Proof.Machine
end

section
/-! PROOFS. The statements of 40_frame_control.md: FrameReset and the RESET command. -/

namespace Sys2Proof.Machine

open Sys2Proof.Claims

/-! ### FrameReset (R100) -/

/-- FrameReset leaves every byte from the first payload offset on, so a former payload stays as stale bytes. -/
theorem Fbu.frameReset_read_payload {f : Fbu} (h : Memory.wf f.buf = true) (c d : Byte) {a : Nat} (ha : 4 ≤ a) :
    Memory.read (f.frameReset c d).buf a = Memory.read f.buf a := by
  rw [Fbu.frameReset_read h, if_neg (by omega), if_neg (by omega), if_neg (by omega), if_neg (by omega)]

/-- The last of two FrameResets decides: each writes the same four offsets. -/
theorem Fbu.frameReset_frameReset {f : Fbu} (h : Memory.wf f.buf = true) (c d c' d' : Byte) :
    (f.frameReset c d).frameReset c' d' = f.frameReset c' d' := by
  have hwf := Fbu.frameReset_wf h c d
  have hbuf : ((f.frameReset c d).frameReset c' d').buf = (f.frameReset c' d').buf := by
    refine Memory.eq_of_read_eq (Fbu.frameReset_wf hwf c' d') (Fbu.frameReset_wf h c' d') fun a => ?_
    rw [Fbu.frameReset_read hwf, Fbu.frameReset_read h, Fbu.frameReset_read h]
    split_ifs <;> rfl
  exact congrArg (fun m => Fbu.mk m 4) hbuf

/-- Settles O16: the header is the whole frame, and the four writes miss every later offset. -/
theorem frameResetWritesTheHeader : Obligations.FrameResetWritesTheHeader :=
  fun f c d h => ⟨Fbu.frameReset_raw h c d, Fbu.frameReset_cur f c d, Fbu.frameReset_blen h c d,
    fun _ => Fbu.frameReset_read_payload h c d⟩

/-! ### The legality check of an opcode (30_encoding.md R75) -/

/-- An opcode has at most two legal words, one for each target, so it is enough to list those. -/
theorem onlyWords_of_legal {op : BitVec 8} {words : List Cmd}
    (h : ∀ t, legalCmd (cmdWord t op) = true → cmdWord t op ∈ words) : OnlyWords op words := by
  intro s cmd arg hop hnot
  have hill : Illegal cmd := by
    by_contra hleg
    have hlegal := (not_illegal_iff cmd).1 hleg
    have hword : cmdWord (cmdTarget cmd) op = cmd := hop ▸ cmdWord_of_fields ((legalCmd_iff cmd).1 hlegal).1
    exact hnot (hword ▸ h (cmdTarget cmd) (hword.symm ▸ hlegal))
  obtain ⟨r, hdec⟩ := decode_error_of_illegal hill arg
  rw [transact_of_decode_error hdec, raise_illegalOp_eq_rejected]

/-! ### RESET (R101, R102) -/

/-- RESET on `TX` is FrameReset of the unit, answered OK with RDATA 0. -/
theorem exec_reset_tx (c d : Byte) (s : State) :
    exec (.reset .tx c d) s = .next (answered 0 { s with tx := s.tx.frameReset c d }) := rfl

/-- Settles O17: the decoder, FrameReset's effect on `TX` alone, and the two ways to be illegal. -/
theorem resetCommandEmptiesTx : Obligations.ResetCommandEmptiesTx := by
  refine ⟨fun arg => decode_cmdWord .tx 0x01 arg rfl rfl, fun s c d hinv => ?_, fun s c d => ?_, onlyWords_of_legal ?_⟩
  · exact ⟨_, exec_reset_tx c d s, Fbu.frameReset_raw hinv.1 c d, rfl,
      fun _ => Fbu.frameReset_read_payload hinv.1 c d, rfl, rfl, rfl, rfl, rfl, rfl⟩
  · rw [exec_txOnly_of_rx rfl rfl, raise_illegalOp_eq_rejected]
  · intro t
    cases t <;> decide

/-- A header accessor answers the byte at its offset and changes only the outputs. -/
theorem headerRead_answers (t : Target) (off : Nat) (s : State) :
    headerRead t off s = .next (answered (BitVec.ofNat 64 (Memory.read (s.fbu t).buf off).toNat) s) := by
  rw [headerRead, resultByte_eq, respond_ok_eq_answered]

/-- Settles O18: the accessors read what FrameReset wrote, and the second FrameReset writes it again. -/
theorem resetCommandIsIdempotent : Obligations.ResetCommandIsIdempotent := by
  intro s c d hinv
  have hread := Fbu.frameReset_read hinv.1 c d
  refine ⟨_, exec_reset_tx c d s, ?_, ?_, ?_, ?_⟩
  · exact (headerRead_answers .tx 3 _).trans (by simp [answered, hread])
  · exact (headerRead_answers .tx 2 _).trans (by simp [answered, hread])
  · exact (headerRead_answers .tx 1 _).trans (by simp [answered, hread])
  · simp only [exec_reset_tx, answered, Fbu.frameReset_frameReset hinv.1]

end Sys2Proof.Machine
end

section
/-! PROOFS. The statements of 41_writes.md: the append primitive, the typed writes built from it, and the payload that a list of
writes leaves. -/

namespace Sys2Proof.Machine

open Sys2Proof.Claims

/-! ### The append primitive (R110) -/

/-- An append past the frame's end is the rejection of 60_exceptions.md R222. -/
theorem append_rejected {t : Target} {w : Nat} (v : Nat) {s : State} (h : 255 < (s.fbu t).blen + w) :
    append t w v s = .next (rejected .oversizeWrite 0x01 s) := by
  rw [append, Fbu.append?_none h]
  rfl

/-- An append that fits replaces the unit by the longer one and leaves the rest of the state. -/
theorem append_appended {t : Target} {w : Nat} (v : Nat) {s : State} (hwf : Memory.wf (s.fbu t).buf = true)
    (hfits : (s.fbu t).blen + w ≤ 255) : ∃ s', append t w v s = .next s' ∧ Appended t w v s s' := by
  obtain ⟨g, hg, -, hcur, hlen, hnew, hrest⟩ := Fbu.append?_spec (v := v) hwf hfits
  have hother : ∀ u, u ≠ t → (s.setFbu t g).fbu u = s.fbu u := fun _ => fbu_setFbu_other s g
  refine ⟨_, append_next hg, ?_⟩
  simp only [← respond_ok_eq_answered, Appended, respond_fbu, fbu_setFbu_self, respond_dfr, respond_diag, respond_input,
    respond_resp, respond_frameDone, setFbu_dfr, setFbu_diag, setFbu_input, and_true]
  exact ⟨hlen, hnew, hrest, hcur, hother⟩

/-- Settles O19: the bound on BLEN is the one on the length byte, and either side of it has its own outcome. -/
theorem appendStoresAllOrNothing : Obligations.AppendStoresAllOrNothing := by
  intro t w v s _ _ hinv
  refine ⟨?_, append_appended v hinv.1, append_rejected v⟩
  rw [Fbu.blen_eq]
  omega

/-! ### The typed writes (R111 to R118) -/

/-- An opcode whose `t` column is "0" has one legal word, the one that names `TX` (30_encoding.md R75 condition 3). -/
theorem onlyWords_of_txOnlyOps {op : BitVec 8} (h : op ∈ txOnlyOps) : OnlyWords op [cmdWord .tx op] := by
  have hcolumn : op ∉ anyTargetOps := (by decide : ∀ o ∈ txOnlyOps, o ∉ anyTargetOps) op h
  refine onlyWords_of_legal fun t hlegal => ?_
  have htarget : t = .tx := by simpa [legalCmd_iff, hcolumn, h] using hlegal
  exact List.mem_singleton.2 (congrArg (cmdWord · op) htarget)

/-- A typed write to `TX` is a command that only `TX` admits, and names it. -/
theorem txOnly_of_writeField {i : Instr} {w v : Nat} (h : writeField i = some (w, v)) :
    i.txOnly = true ∧ i.target = .tx := by
  unfold writeField at h
  split at h <;> cases h <;> exact ⟨rfl, rfl⟩

theorem wellFormed_of_writeField {i : Instr} {w v : Nat} (h : writeField i = some (w, v)) : WellFormed i := by
  obtain ⟨htx, htarget⟩ := txOnly_of_writeField h
  rw [wellFormed_iff_opcode]
  exact .inr ⟨(opcode_mem_txOnlyOps i).2 htx, htarget⟩

/-- The template of R111 to R118: a write follows it when its opcode decodes to it, its field is its operand, and `RX` is
refused it. -/
theorem writeRule_of_field {w : Nat} {mk : Target → BitVec (8 * w) → Instr} {op : BitVec 8}
    (hop : ∀ arg, decodeOp op .tx arg = some (mk .tx (arg.extractLsb' 0 (8 * w))))
    (hfield : ∀ v, writeField (mk .tx v) = some (w, v.toNat))
    (hrx : ∀ v, (mk .rx v).txOnly = true ∧ (mk .rx v).target = .rx) : WriteRule w mk (cmdWord .tx op) := by
  have hlisted : op ∈ txOnlyOps := by
    rw [← (decodeOp_some (hop 0)).1, opcode_mem_txOnlyOps]
    exact (txOnly_of_writeField (hfield _)).1
  refine ⟨fun arg => ?_, fun s v hinv hfits => ?_, fun s v hfull => ?_, fun s v => ?_, ?_⟩
  · exact decode_cmdWord .tx op arg (hop arg) (wellFormed_of_writeField (hfield _))
  · rw [exec_writeField (hfield v)]
    exact append_appended (t := .tx) v.toNat hinv.1 hfits
  · rw [exec_writeField (hfield v)]
    exact append_rejected (t := .tx) v.toNat hfull
  · rw [exec_txOnly_of_rx (hrx v).1 (hrx v).2, raise_illegalOp_eq_rejected]
  · have hopcode : (cmdWord .tx op).extractLsb' 0 8 = op := cmdOp_cmdWord .tx op
    rw [hopcode]
    exact onlyWords_of_txOnlyOps hlisted

/-- Settles O20: the three unsigned writes follow the template. -/
theorem unsignedWritesAppend : Obligations.UnsignedWritesAppend :=
  ⟨writeRule_of_field (op := 0x10) (fun _ => rfl) (fun _ => rfl) fun _ => ⟨rfl, rfl⟩,
    writeRule_of_field (op := 0x11) (fun _ => rfl) (fun _ => rfl) fun _ => ⟨rfl, rfl⟩,
    writeRule_of_field (op := 0x12) (fun _ => rfl) (fun _ => rfl) fun _ => ⟨rfl, rfl⟩⟩

/-- Settles O21: the signed writes follow the template, with the meaning of the unsigned ones. -/
theorem signedWritesAppend : Obligations.SignedWritesAppend :=
  ⟨writeRule_of_field (op := 0x14) (fun _ => rfl) (fun _ => rfl) fun _ => ⟨rfl, rfl⟩,
    writeRule_of_field (op := 0x15) (fun _ => rfl) (fun _ => rfl) fun _ => ⟨rfl, rfl⟩,
    writeRule_of_field (op := 0x16) (fun _ => rfl) (fun _ => rfl) fun _ => ⟨rfl, rfl⟩,
    fun _ _ => ⟨fun _ => rfl, fun _ => rfl, fun _ => rfl⟩⟩

/-- Settles O22: the float writes follow the template, their operand taken as raw bits. -/
theorem floatWritesAppend : Obligations.FloatWritesAppend :=
  ⟨writeRule_of_field (op := 0x1A) (fun _ => rfl) (fun _ => rfl) fun _ => ⟨rfl, rfl⟩,
    writeRule_of_field (op := 0x1B) (fun _ => rfl) (fun _ => rfl) fun _ => ⟨rfl, rfl⟩⟩

/-! ### The end of the frame (R120) -/

theorem writeField_width_pos {i : Instr} {w v : Nat} (h : writeField i = some (w, v)) : 0 < w := by
  unfold writeField at h
  split at h <;> cases h <;> decide

/-- Settles O23: a write has at least one byte, and one that lands on offset 255 leaves the length 251. -/
theorem writeBoundaryLaw : Obligations.WriteBoundaryLaw := by
  intro i w v s hfield hinv
  rw [exec_writeField hfield]
  refine ⟨fun hfull => append_rejected (t := .tx) v ?_, fun hlast => ?_⟩
  · have hpos := writeField_width_pos hfield
    rw [fbu_tx]
    omega
  · obtain ⟨s', hnext, hlen, -⟩ := append_appended (t := .tx) v hinv.1 hlast.le
    have hlen' : s'.tx.lenByte.toNat = 251 := by
      rw [Fbu.blen_eq] at hlast
      simp only [fbu_tx] at hlen
      omega
    refine ⟨s', hnext, by rw [Fbu.blen_eq, hlen'], ?_⟩
    have hread := headerRead_answers .tx 3 s'
    rwa [fbu_tx, ← Fbu.lenByte, hlen'] at hread

/-! ### The payload of a list of writes (R121) -/

/-- The bytes after the header, as many as the length byte says. -/
def Fbu.payload (f : Fbu) : List Byte := (List.range f.lenByte.toNat).map fun i => Memory.read f.buf (4 + i)

@[simp] theorem Fbu.payload_length (f : Fbu) : f.payload.length = f.lenByte.toNat := by simp [Fbu.payload]

/-- An append puts its little-endian bytes behind the payload. -/
theorem payload_of_appended {t : Target} {w v : Nat} {s s' : State} (h : Appended t w v s s') :
    (s'.fbu t).payload = (s.fbu t).payload ++ leBytes w v := by
  obtain ⟨hlen, hnew, hrest, -⟩ := h
  rw [Fbu.blen_eq] at hnew hrest
  rw [Fbu.payload, hlen, List.range_add, List.map_append, List.map_map]
  congr 1
  · refine List.map_congr_left fun i hi => hrest _ (by omega) (.inl ?_)
    exact Nat.add_lt_add_left (List.mem_range.1 hi) 4
  · refine List.map_congr_left fun i hi => ?_
    rw [Function.comp_apply, ← Nat.add_assoc]
    exact hnew i (List.mem_range.1 hi)

/-- The unit's frame is that of a packet with command id `c`, device id `d` and payload `p`. -/
structure Fbu.Carries (f : Fbu) (c d : Byte) (p : List Byte) : Prop where
  marker : Memory.read f.buf 0 = 0xFF
  device : Memory.read f.buf 1 = d
  command : Memory.read f.buf 2 = c
  payload : f.payload = p

theorem Fbu.Carries.length {f : Fbu} {c d : Byte} {p : List Byte} (h : f.Carries c d p) :
    p.length = f.lenByte.toNat := by
  rw [← h.payload, Fbu.payload_length]

theorem Fbu.Carries.raw {f : Fbu} {c d : Byte} {p : List Byte} (h : f.Carries c d p) :
    f.raw = [0xFF, d, c, BitVec.ofNat 8 p.length] ++ p := by
  have hlenByte : BitVec.ofNat 8 p.length = f.lenByte := by rw [h.length, BitVec.ofNat_toNat, BitVec.setWidth_eq]
  rw [Fbu.raw_eq_header_payload, h.marker, h.device, h.command, hlenByte]
  exact congrArg _ h.payload

/-- FrameReset leaves a packet without payload (40_frame_control.md R100). -/
theorem Fbu.frameReset_carries {f : Fbu} (h : Memory.wf f.buf = true) (c d : Byte) :
    (f.frameReset c d).Carries c d [] where
  marker := Fbu.frameReset_read h c d 0
  device := Fbu.frameReset_read h c d 1
  command := Fbu.frameReset_read h c d 2
  payload := by rw [Fbu.payload, Fbu.frameReset_lenByte h]; rfl

/-- An append lies behind the header and so changes the packet in its payload only. -/
theorem carries_of_appended {t : Target} {w v : Nat} {s s' : State} {c d : Byte} {p : List Byte}
    (h : Appended t w v s s') (hp : (s.fbu t).Carries c d p) : (s'.fbu t).Carries c d (p ++ leBytes w v) := by
  have hpayload := payload_of_appended h
  obtain ⟨-, -, hrest, -⟩ := h
  have hheader : ∀ a < 3, Memory.read (s'.fbu t).buf a = Memory.read (s.fbu t).buf a := fun a ha =>
    hrest a (by omega) (.inl (by have := (s.fbu t).four_le_blen; omega))
  exact ⟨(hheader 0 (by omega)).trans hp.marker, (hheader 1 (by omega)).trans hp.device,
    (hheader 2 (by omega)).trans hp.command, hp.payload ▸ hpayload⟩

/-- What a typed write does to the packet in `TX`: its bytes are added when they fit in 251, and nothing otherwise. -/
theorem exec_write_carries {i : Instr} {w v : Nat} {s : State} {c d : Byte} {p : List Byte}
    (hfield : writeField i = some (w, v)) (hinv : s.tx.Inv) (hp : s.tx.Carries c d p) :
    ∃ s', exec i s = .next s' ∧
      s'.tx.Carries c d (if p.length + w ≤ 251 then p ++ leBytes w v else p) ∧
      s'.rx = s.rx ∧ s'.dfr = s.dfr ∧ s'.input = s.input := by
  have hblen : s.tx.blen = 4 + p.length := by rw [Fbu.blen_eq, hp.length]
  rw [exec_writeField hfield]
  split_ifs with hfits
  · obtain ⟨s', hnext, happ⟩ := append_appended (t := .tx) (w := w) v hinv.1 (by rw [fbu_tx]; omega)
    have hp' := carries_of_appended happ hp
    obtain ⟨-, -, -, -, hother, hdfr, -, hinput, -⟩ := happ
    exact ⟨s', hnext, hp', hother .rx nofun, hdfr, hinput⟩
  · exact ⟨_, append_rejected (t := .tx) v (by rw [fbu_tx]; omega), hp, rfl, rfl, rfl⟩

/-- A well-formed command presented as its encoding is run by the step that takes it. -/
theorem step_of_presentation {s : State} {i : Instr} {rest : List Input} (hwf : WellFormed i)
    (hin : s.input = presentation i :: rest) : step s = exec i { s with input := rest } :=
  stepRunsTheDecodedCommand s _ _ rest i hin (decodeInvertsEncode i hwf)

/-- A run over presented writes, one step for each, by induction on the writes still waiting. -/
theorem run_writes_carries {c d : Byte} (ws : List Instr) {s : State} {p : List Byte} (hinv : s.Inv)
    (hp : s.tx.Carries c d p) (hin : s.input = ws.map presentation)
    (hws : ∀ i ∈ ws, (writeField i).isSome = true) :
    ∃ s', Host.Core.run Sys2Proof.core ws.length s = .next s' ∧ s'.tx.Carries c d (payloadAfter p ws) ∧
      s'.rx = s.rx ∧ s'.dfr = s.dfr := by
  induction ws generalizing s p with
  | nil => exact ⟨s, rfl, hp, rfl, rfl⟩
  | cons i rest ih =>
    obtain ⟨hi, hrest⟩ := List.forall_mem_cons.1 hws
    obtain ⟨⟨w, v⟩, hfield⟩ := Option.isSome_iff_exists.1 hi
    have hstep := step_of_presentation (wellFormed_of_writeField hfield) hin
    have hinv' : ({ s with input := rest.map presentation } : State).Inv := hinv.of_outputs _ _ _
    obtain ⟨s1, hexec, hp1, hrx1, hdfr1, hin1⟩ :=
      exec_write_carries (s := { s with input := rest.map presentation }) hfield hinv.1 hp
    obtain ⟨s', hrun, hp', hrx', hdfr'⟩ := ih (exec_inv hinv' hexec) hp1 hin1 hrest
    refine ⟨s', ?_, ?_, hrx'.trans hrx1, hdfr'.trans hdfr1⟩
    · exact (core_run_succ rest.length (hstep.trans hexec)).trans hrun
    · rwa [payloadAfter, hfield]

/-- Settles O24: RESET starts an empty packet, and each write of the run keeps or extends it. -/
theorem lengthFieldLaw : Obligations.LengthFieldLaw := by
  intro s c d ws hinv hws
  have hinv' : (s.presenting ws).Inv := hinv.of_outputs _ _ _
  have hstep : step (s.presenting (.reset .tx c d :: ws)) = exec (.reset .tx c d) (s.presenting ws) :=
    step_of_presentation rfl rfl
  have hexec := exec_reset_tx c d (s.presenting ws)
  have hempty : (s.tx.frameReset c d).Carries c d [] := Fbu.frameReset_carries hinv.1.1 c d
  obtain ⟨s', hrun, hp, hrx, hdfr⟩ := run_writes_carries ws (exec_inv hinv' hexec) hempty rfl hws
  exact ⟨s', (core_run_succ ws.length (hstep.trans hexec)).trans hrun, hp.raw, hrx, hdfr⟩

end Sys2Proof.Machine
end

section
/-! PROOFS. The statements of 42_reads.md: the sequential and the offset read primitives, the typed reads built from them, and
what a read returns after a write. -/

namespace Sys2Proof.Machine

open Sys2Proof.Claims

/-! ### The sequential read primitive (R130) -/

/-- Raising OutOfRangeRead is the rejection of 60_exceptions.md R223. -/
theorem raise_outOfRangeRead_eq_rejected (s : State) : raise .outOfRangeRead s = rejected .outOfRangeRead 0x02 s := rfl

/-- The model's little-endian access is the sum of 20_memory.md R52. -/
theorem readLE_eq_fieldValue (f : Fbu) (a w : Nat) : Memory.readLE f.buf a w = fieldValue f a w :=
  Memory.readLE_eq_sum f.buf a w

theorem fieldValue_lt (f : Fbu) (a w : Nat) : fieldValue f a w < 2 ^ (8 * w) :=
  readLE_eq_fieldValue f a w ▸ Memory.readLE_lt f.buf a w

/-- A sequential read inside the frame answers the field at the cursor and moves only that unit's cursor. -/
theorem seqRead_answered {t : Target} {w : Nat} (form : Nat → Word) {s : State}
    (hfits : (s.fbu t).cur.toNat + w ≤ (s.fbu t).blen) :
    seqRead t w form s = .next (answered (form (fieldValue (s.fbu t) (s.fbu t).cur.toNat w))
      (s.setFbu t { s.fbu t with cur := BitVec.ofNat 8 ((s.fbu t).cur.toNat + w) })) := by
  have hcur : (s.fbu t).cur + BitVec.ofNat 8 w = BitVec.ofNat 8 ((s.fbu t).cur.toNat + w) := by
    rw [BitVec.ofNat_add, BitVec.ofNat_toNat, BitVec.setWidth_eq]
  rw [seqRead_next hfits, respond_ok_eq_answered, readLE_eq_fieldValue, hcur]

theorem seqRead_out_of_range {t : Target} {w : Nat} (form : Nat → Word) {s : State}
    (h : (s.fbu t).blen < (s.fbu t).cur.toNat + w) :
    seqRead t w form s = .next (rejected .outOfRangeRead 0x02 s) := by
  rw [seqRead_rejected h, raise_outOfRangeRead_eq_rejected]

/-- No append moves a cursor, of its own unit or of the other one. -/
theorem append_cur {t u : Target} {w v : Nat} {s s' : State} (h : append u w v s = .next s') :
    (s'.fbu t).cur = (s.fbu t).cur := by
  obtain rfl | ⟨f, hf, rfl⟩ := append_cases h
  · rw [raise_fbu]
  · rw [respond_fbu]
    by_cases htu : t = u
    · subst htu
      rw [fbu_setFbu_self, Fbu.append?_cur hf]
    · rw [fbu_setFbu_other s f htu]

/-- Settles O25: the cursor stays within BLEN, so its 8 bits hold the advance. -/
theorem sequentialReadConsumesTheNextBytes : Obligations.SequentialReadConsumesTheNextBytes := by
  intro t w form s _ hinv
  refine ⟨fun hfits => ?_, seqRead_out_of_range form, fun u v s' => append_cur⟩
  have hblen := hinv.blen_le
  have hother : ∀ f u, u ≠ t → (s.setFbu t f).fbu u = s.fbu u := fun f _ => fbu_setFbu_other s f
  refine ⟨_, seqRead_answered form hfits, ?_⟩
  simp only [← respond_ok_eq_answered, respond_fbu, fbu_setFbu_self, respond_dfr, respond_diag, respond_input,
    respond_resp, respond_frameDone, setFbu_dfr, setFbu_diag, setFbu_input, and_true, true_and]
  refine ⟨?_, hother _⟩
  rw [BitVec.toNat_ofNat, Nat.mod_eq_of_lt (by omega)]

/-! ### The typed reads' words (30_encoding.md R73, R75) -/

/-- A command whose `t` column is "any" decodes from its opcode on either target. -/
theorem decode_of_anyTargetOps {op : BitVec 8} {t : Target} {arg : Word} {i : Instr} (hany : op ∈ anyTargetOps)
    (hop : decodeOp op t arg = some i) : decode (cmdWord t op) arg = .ok i := by
  have hopcode : i.opcode ∈ anyTargetOps := (decodeOp_some hop).1 ▸ hany
  exact decode_cmdWord t op arg hop ((wellFormed_iff_opcode i).2 (.inl hopcode))

/-- Every legal word of an opcode is the one that names `TX` or the one that names `RX`. -/
theorem onlyWords_of_both_targets (op : BitVec 8) :
    OnlyWords ((cmdWord .tx op).extractLsb' 0 8) [cmdWord .tx op, cmdWord .rx op] := by
  have hopcode : (cmdWord .tx op).extractLsb' 0 8 = op := cmdOp_cmdWord .tx op
  rw [hopcode]
  refine onlyWords_of_legal fun t _ => ?_
  cases t
  · exact List.mem_cons_self
  · exact List.mem_cons_of_mem _ List.mem_cons_self

/-! ### The sequential reads (R131 to R138) -/

/-- The template of R131 to R138: a read follows it when its opcode decodes to it on either target and it is the sequential
read of its width, with a result formed as the statement says for every value of that width. -/
theorem seqReadRule_of_seqRead {w : Nat} {mk : Target → Instr} {form spec : Nat → Word} {op : BitVec 8}
    (hany : op ∈ anyTargetOps) (hop : ∀ t arg, decodeOp op t arg = some (mk t))
    (hexec : ∀ t s, exec (mk t) s = seqRead t w form s) (hform : ∀ v < 2 ^ (8 * w), form v = spec v) :
    SeqReadRule w mk spec (cmdWord .tx op) (cmdWord .rx op) := by
  have hanswer : ∀ (s : State) (t : Target), (s.fbu t).cur.toNat + w ≤ (s.fbu t).blen →
      exec (mk t) s = .next (answered (spec (fieldValue (s.fbu t) (s.fbu t).cur.toNat w))
        (s.setFbu t { s.fbu t with cur := BitVec.ofNat 8 ((s.fbu t).cur.toNat + w) })) := fun s t hfits => by
    rw [hexec, seqRead_answered form hfits, hform _ (fieldValue_lt _ _ _)]
  refine ⟨fun arg => ?_, fun s _ => hanswer s .tx, fun s _ => hanswer s .rx, fun s t hout => ?_,
    onlyWords_of_both_targets op⟩
  · exact ⟨decode_of_anyTargetOps hany (hop .tx arg), decode_of_anyTargetOps hany (hop .rx arg)⟩
  · rw [hexec, seqRead_out_of_range form hout]

/-- The sign-extended value is the two's-complement one, for a value that fits in its width (30_encoding.md R77). -/
theorem resultSext_eq_signed {w v : Nat} (hw : 0 < w) (hv : v < 2 ^ (8 * w)) : resultSext w v = signed w v := by
  have hpow : 2 ^ (8 * w) = 2 * 2 ^ (8 * w - 1) := (mul_pow_sub_one (by omega) 2).symm
  have hsign : 2 * v < 2 ^ (8 * w) ↔ v < 2 ^ (8 * w - 1) := by omega
  have hint : (BitVec.ofNat (8 * w) v).toInt =
      if v < 2 ^ (8 * w - 1) then (v : Int) else (v : Int) - 2 ^ (8 * w) := by
    simp only [BitVec.toInt_eq_toNat_cond, BitVec.toNat_ofNat, Nat.mod_eq_of_lt hv, hsign, Nat.cast_pow, Nat.cast_ofNat]
  rw [resultSext, BitVec.signExtend, hint, signed]

/-- Settles O26: the unsigned reads follow the template with the zero-extended value. -/
theorem unsignedReadsZeroExtend : Obligations.UnsignedReadsZeroExtend :=
  ⟨seqReadRule_of_seqRead (op := 0x20) (by decide) (fun _ _ => rfl) (fun _ _ => rfl) fun _ _ => rfl,
    seqReadRule_of_seqRead (op := 0x21) (by decide) (fun _ _ => rfl) (fun _ _ => rfl) fun _ _ => rfl,
    seqReadRule_of_seqRead (op := 0x22) (by decide) (fun _ _ => rfl) (fun _ _ => rfl) fun _ _ => rfl⟩

/-- Settles O27: the signed reads follow the template with the two's-complement value of their width. -/
theorem signedReadsSignExtend : Obligations.SignedReadsSignExtend := by
  have hform (w : Nat) (hw : 0 < w) : ∀ v < 2 ^ (8 * w), resultSext w v = signed w v := fun _ => resultSext_eq_signed hw
  exact ⟨seqReadRule_of_seqRead (op := 0x24) (by decide) (fun _ _ => rfl) (fun _ _ => rfl) (hform 1 Nat.one_pos),
    seqReadRule_of_seqRead (op := 0x25) (by decide) (fun _ _ => rfl) (fun _ _ => rfl) (hform 2 Nat.two_pos),
    seqReadRule_of_seqRead (op := 0x26) (by decide) (fun _ _ => rfl) (fun _ _ => rfl) (hform 4 (by decide))⟩

/-- Settles O28: the float reads follow the template with the raw bits, as the unsigned ones do. -/
theorem floatReadsReturnRawBits : Obligations.FloatReadsReturnRawBits :=
  ⟨seqReadRule_of_seqRead (op := 0x2A) (by decide) (fun _ _ => rfl) (fun _ _ => rfl) fun _ _ => rfl,
    seqReadRule_of_seqRead (op := 0x2B) (by decide) (fun _ _ => rfl) (fun _ _ => rfl) fun _ _ => rfl⟩

/-! ### The offset reads (R140 to R143) -/

theorem offRead_answered {t : Target} {off w : Nat} (form : Nat → Word) {s : State} (hfits : off + w ≤ (s.fbu t).blen) :
    offRead t off w form s = .next (answered (form (fieldValue (s.fbu t) off w)) s) := by
  rw [offRead_next hfits, respond_ok_eq_answered, readLE_eq_fieldValue]

theorem offRead_out_of_range {t : Target} {off w : Nat} (form : Nat → Word) {s : State}
    (h : (s.fbu t).blen < off + w) : offRead t off w form s = .next (rejected .outOfRangeRead 0x02 s) := by
  rw [offRead_rejected h, raise_outOfRangeRead_eq_rejected]

/-- The template of R141 to R143: a read follows it when its opcode decodes to it on either target with `off = ARG[15:0]`, and
it is the zero-extended offset read of its width. -/
theorem offReadRule_of_offRead {w : Nat} {mk : Target → BitVec 16 → Instr} {op : BitVec 8} (hw : 0 < w)
    (hany : op ∈ anyTargetOps) (hop : ∀ t arg, decodeOp op t arg = some (mk t (arg.extractLsb' 0 16)))
    (hexec : ∀ t off s, exec (mk t off) s = offRead t off.toNat w resultZext s) :
    OffReadRule w mk (cmdWord .tx op) (cmdWord .rx op) := by
  have hout : ∀ (s : State) (t : Target) (off : BitVec 16), (s.fbu t).blen < off.toNat + w →
      exec (mk t off) s = .next (rejected .outOfRangeRead 0x02 s) := fun s t off h => by
    rw [hexec, offRead_out_of_range resultZext h]
  refine ⟨fun arg => ?_, fun s t off _ hfits => ?_, hout, fun s t off hinv hfar => hout s t off ?_,
    onlyWords_of_both_targets op⟩
  · exact ⟨decode_of_anyTargetOps hany (hop .tx arg), decode_of_anyTargetOps hany (hop .rx arg)⟩
  · rw [hexec, offRead_answered resultZext hfits, resultZext]
  · have hblen := hinv.blen_le
    omega

/-- Settles O29: the three offset reads follow the template. -/
theorem offsetReadsReturnTheField : Obligations.OffsetReadsReturnTheField :=
  ⟨offReadRule_of_offRead (op := 0x30) (by decide) (by decide) (fun _ _ => rfl) fun _ _ _ => rfl,
    offReadRule_of_offRead (op := 0x32) (by decide) (by decide) (fun _ _ => rfl) fun _ _ _ => rfl,
    offReadRule_of_offRead (op := 0x3B) (by decide) (by decide) (fun _ _ => rfl) fun _ _ _ => rfl⟩

/-! ### Reads after writes (R144, R145) -/

/-- A field that an append has just written holds the appended value. -/
theorem fieldValue_of_appended {t : Target} {w : Nat} {v : BitVec (8 * w)} {s s' : State}
    (h : Appended t w v.toNat s s') : fieldValue (s'.fbu t) (s.fbu t).blen w = v.toNat := by
  obtain ⟨-, hnew, -⟩ := h
  rw [← readLE_eq_fieldValue, Memory.readLE_of_bytes hnew, Nat.mod_eq_of_lt v.isLt]

/-- A typed write to an empty `TX` frame, and the sequential read of the same width after it: both complete, and the read's
result is formed from the written value. -/
theorem exec_write_then_seqRead {w : Nat} (v : BitVec (8 * w)) {form : Nat → Word} {r : Word} {wr rd : Instr} {s : State}
    (hinv : s.tx.Inv) (hempty : s.tx.blen = 4) (hw : w ≤ 251) (hwr : writeField wr = some (w, v.toNat))
    (hrd : ∀ s, exec rd s = seqRead .tx w form s) (hform : form v.toNat = r) :
    ∃ s₂ s₃, exec wr s = .next s₂ ∧ exec rd s₂ = .next s₃ ∧ s₃.resp = { rdata := r, code := .ok, done := false } := by
  obtain ⟨hwf, -, -, hlow, hhigh⟩ := hinv
  obtain ⟨s₂, hnext, happ⟩ := append_appended (t := .tx) (w := w) v.toNat hwf (by rw [fbu_tx]; omega)
  have hvalue : fieldValue s₂.tx 4 w = v.toNat := hempty ▸ fieldValue_of_appended happ
  have hcur : s₂.tx.cur.toNat = 4 := by
    have hkept : s₂.tx.cur = s.tx.cur := append_cur (t := .tx) hnext
    rw [hkept]
    exact Nat.le_antisymm (hempty ▸ hhigh) hlow
  have hfits : s₂.tx.cur.toNat + w ≤ s₂.tx.blen := by
    obtain ⟨hlen, -⟩ := happ
    rw [fbu_tx] at hlen
    rw [hcur, Fbu.blen_eq]
    omega
  refine ⟨s₂, _, (exec_writeField hwr s).trans hnext, (hrd s₂).trans (seqRead_answered (t := .tx) form hfits), ?_⟩
  simp only [answered, fbu_tx, hcur, hvalue, hform]

theorem resultZext_toNat {n : Nat} (v : BitVec n) : resultZext v.toNat = v.setWidth 64 := BitVec.ofNat_toNat 64 v

theorem resultZext_toNat_word (v : Word) : resultZext v.toNat = v := (resultZext_toNat v).trans (BitVec.setWidth_eq v)

theorem resultSext_toNat {w : Nat} (v : BitVec (8 * w)) : resultSext w v.toNat = v.signExtend 64 := by
  rw [resultSext, BitVec.ofNat_toNat, BitVec.setWidth_eq]

/-- RESET leaves an empty frame in `TX` (40_frame_control.md R101). -/
theorem exec_reset_tx_empty {s : State} (hinv : s.tx.Inv) (c d : Byte) :
    ∃ s₁, exec (.reset .tx c d) s = .next s₁ ∧ s₁.tx.Inv ∧ s₁.tx.blen = 4 :=
  ⟨_, exec_reset_tx c d s, Fbu.frameReset_inv hinv.1 c d, Fbu.frameReset_blen hinv.1 c d⟩

/-- Settles O35: each write puts its field where the cursor of the empty frame stands. -/
theorem writeThenReadRoundTrips : Obligations.WriteThenReadRoundTrips := by
  intro s c d hinv
  obtain ⟨s₁, hreset, hinv₁, hempty⟩ := exec_reset_tx_empty hinv c d
  have hround {w : Nat} (v : BitVec (8 * w)) {form : Nat → Word} {r : Word} {wr rd : Instr} :=
    exec_write_then_seqRead v (form := form) (r := r) (wr := wr) (rd := rd) hinv₁ hempty
  refine ⟨s₁, hreset, fun v => ?_, fun v => ?_, fun v => ?_, fun v => ?_, fun v => ?_, fun v => ?_,
    fun v => ?_, fun v => ?_⟩
  · exact hround (w := 1) v (by decide) rfl (fun _ => rfl) (resultZext_toNat v)
  · exact hround (w := 2) v (by decide) rfl (fun _ => rfl) (resultZext_toNat v)
  · exact hround (w := 4) v (by decide) rfl (fun _ => rfl) (resultZext_toNat v)
  · exact hround (w := 1) v (by decide) rfl (fun _ => rfl) (resultSext_toNat (w := 1) v)
  · exact hround (w := 2) v (by decide) rfl (fun _ => rfl) (resultSext_toNat (w := 2) v)
  · exact hround (w := 4) v (by decide) rfl (fun _ => rfl) (resultSext_toNat (w := 4) v)
  · exact hround (w := 4) v (by decide) rfl (fun _ => rfl) (resultZext_toNat v)
  · exact hround (w := 8) v (by decide) rfl (fun _ => rfl) (resultZext_toNat_word v)

/-- Settles O36: the rejection changes no unit, so the write and the read find the empty frame as RESET left it. -/
theorem rejectedReadKeepsTheCursor : Obligations.RejectedReadKeepsTheCursor := by
  intro s c d x hinv
  obtain ⟨s₁, hreset, hinv₁, hempty⟩ := exec_reset_tx_empty hinv c d
  have hout : s₁.tx.blen < s₁.tx.cur.toNat + 1 := by
    obtain ⟨-, -, -, hlow, -⟩ := hinv₁
    exact hempty ▸ Nat.lt_succ_of_le hlow
  have hrejected : exec (.rdU8 .tx) s₁ = .next (rejected .outOfRangeRead 0x02 s₁) :=
    seqRead_out_of_range (t := .tx) resultZext hout
  obtain ⟨s₃, s₄, hwrite, hread, hresp⟩ := exec_write_then_seqRead (w := 1) x (wr := .wrU8 .tx x) (rd := .rdU8 .tx)
    (s := rejected .outOfRangeRead 0x02 s₁) hinv₁ hempty (by decide) rfl (fun _ => rfl) rfl
  exact ⟨s₁, _, s₃, s₄, hreset, hrejected, hwrite, hread, rfl, rfl, hresp⟩

end Sys2Proof.Machine
end

section
/-! PROOFS. The statements of 43_accessors_encodings.md: the header accessors, the base64 form against the standard encoding of
the frame, and the readouts that the host issues command by command. -/

namespace Sys2Proof.Machine

open Sys2Proof.Claims

/-! ### The header accessors (R160 to R162) -/

/-- The template of R160 to R162: a command follows it when its opcode decodes to it on either target and it reads a header byte,
since a frame holds its whole header. -/
theorem headerRule_of_headerRead {off : Nat} {mk : Target → Instr} {op : BitVec 8} (hoff : off < 4)
    (hany : op ∈ anyTargetOps) (hop : ∀ t arg, decodeOp op t arg = some (mk t))
    (hexec : ∀ t s, exec (mk t) s = headerRead t off s) : HeaderRule off mk (cmdWord .tx op) (cmdWord .rx op) := by
  refine ⟨fun arg => ?_, fun s t => ?_, onlyWords_of_both_targets op⟩
  · exact ⟨decode_of_anyTargetOps hany (hop .tx arg), decode_of_anyTargetOps hany (hop .rx arg)⟩
  · refine ⟨_, Fbu.raw_getElem? _ (Nat.lt_of_lt_of_le hoff (Fbu.four_le_blen _)), ?_⟩
    rw [hexec, headerRead_answers]

/-- GET_LEN answers the length byte. -/
theorem exec_getLen (t : Target) (s : State) :
    exec (.getLen t) s = .next (answered (BitVec.ofNat 64 (s.fbu t).lenByte.toNat) s) := headerRead_answers t 3 s

/-- Settles O30: the three accessors follow the template, and the length byte counts the payload. -/
theorem headerAccessorsReadFixedOffsets : Obligations.HeaderAccessorsReadFixedOffsets := by
  refine ⟨headerRule_of_headerRead (op := 0x41) (by decide) (by decide) (fun _ _ => rfl) fun _ _ => rfl,
    headerRule_of_headerRead (op := 0x42) (by decide) (by decide) (fun _ _ => rfl) fun _ _ => rfl,
    headerRule_of_headerRead (op := 0x43) (by decide) (by decide) (fun _ _ => rfl) fun _ _ => rfl, fun s t hinv => ?_⟩
  obtain ⟨-, -, hlen, -⟩ := hinv
  exact ⟨(s.fbu t).lenByte.toNat, hlen, exec_getLen t s, by rw [Fbu.raw_length, Fbu.blen_eq]⟩

/-! ### Standard base64 of a list of bytes (R165, R167) -/

/-- Three bytes or the shorter last group become four characters. -/
theorem base64_length (l : List Byte) : (base64 l).length = b64Length l.length := by
  induction l using base64.induct with
  | case1 | case2 a | case3 a b => simp [base64, b64Length]
  | case4 a b c rest ih =>
    simp only [base64, List.length_cons, ih, b64Length]
    omega

/-- The groups are encoded one by one: past the first `j` groups stands the encoding of the bytes past them. -/
theorem base64_drop (j : Nat) (l : List Byte) : (base64 l).drop (4 * j) = base64 (l.drop (3 * j)) := by
  induction j generalizing l with
  | zero => rfl
  | succ j ih =>
    match l with
    | [] | [a] | [a, b] => simp [base64, Nat.mul_succ]
    | a :: b :: c :: rest => simpa [base64, Nat.mul_succ] using ih rest

theorem letter_congr {m n : Nat} (h : m % 64 = n % 64) : letter m = letter n := by rw [letter, letter, h]

theorem letter_mem_alphabet (n : Nat) : letter n ∈ alphabet := by
  have hlength : alphabet.length = 64 := by decide
  have hindex : n % 64 < alphabet.length := hlength ▸ Nat.mod_lt n (by decide)
  rw [letter, List.getElem?_eq_getElem hindex, Option.getD_some]
  exact List.getElem_mem hindex

/-- The padding character is none of the alphabet's. -/
theorem pad_not_mem_letters (ns : List Nat) : 0x3D ∉ ns.map letter := by
  intro h
  obtain ⟨n, -, hn⟩ := List.mem_map.1 h
  have hpad : (0x3D : Byte) ∉ alphabet := by decide
  exact hpad (hn ▸ letter_mem_alphabet n)

/-- The encoding is letters alone, followed by the padding of the last group. -/
theorem base64_eq_letters_append_padding (l : List Byte) :
    ∃ ns : List Nat, base64 l = ns.map letter ++ List.replicate ((3 - l.length % 3) % 3) 0x3D := by
  induction l using base64.induct with
  | case1 => exact ⟨[], by simp [base64]⟩
  | case2 a => exact ⟨[a.toNat / 4, a.toNat * 16], by simp [base64, List.replicate]⟩
  | case3 a b =>
    exact ⟨[a.toNat / 4, a.toNat * 16 + b.toNat / 16, b.toNat * 4], by simp [base64]⟩
  | case4 a b c rest ih =>
    obtain ⟨ns, heq⟩ := ih
    refine ⟨a.toNat / 4 :: (a.toNat * 16 + b.toNat / 16) :: (b.toNat * 4 + c.toNat / 64) :: c.toNat :: ns, ?_⟩
    simp only [base64, heq, List.map_cons, List.cons_append, List.length_cons, Nat.add_assoc, Nat.add_mod_right]

/-! ### The model's characters are those of the standard encoding (R165) -/

/-- `B64CHAR` is the alphabet. -/
theorem b64Char_eq_letter : ∀ k : BitVec 6, b64Char k = letter k.toNat := by decide

/-- A 6-bit slice of a group, as a character. -/
theorem b64Char_extractLsb' (w : BitVec 24) (lo : Nat) : b64Char (w.extractLsb' lo 6) = letter (w.toNat / 2 ^ lo) := by
  rw [b64Char_eq_letter, BitVec.extractLsb'_toNat, Nat.shiftRight_eq_div_pow]
  exact letter_congr (Nat.mod_mod _ 64)

/-- The 24 bits of a group, its first byte the most significant. -/
theorem toNat_group (a b c : Byte) : (a ++ b ++ c : BitVec 24).toNat = a.toNat * 65536 + b.toNat * 256 + c.toNat := by
  rw [BitVec.toNat_append, BitVec.toNat_append, ← Nat.shiftLeft_add_eq_or_of_lt b.isLt,
    ← Nat.shiftLeft_add_eq_or_of_lt c.isLt, Nat.shiftLeft_eq, Nat.shiftLeft_eq]
  omega

/-- The four characters of a group, from its bytes as the standard encoding takes them. -/
theorem b64Char_group (a b c : Byte) :
    b64Char ((a ++ b ++ c : BitVec 24).extractLsb' 18 6) = letter (a.toNat / 4) ∧
      b64Char ((a ++ b ++ c : BitVec 24).extractLsb' 12 6) = letter (a.toNat * 16 + b.toNat / 16) ∧
      b64Char ((a ++ b ++ c : BitVec 24).extractLsb' 6 6) = letter (b.toNat * 4 + c.toNat / 64) ∧
      b64Char ((a ++ b ++ c : BitVec 24).extractLsb' 0 6) = letter c.toNat := by
  have hb := b.isLt
  have hc := c.isLt
  simp only [b64Char_extractLsb', toNat_group]
  refine ⟨letter_congr ?_, letter_congr ?_, letter_congr ?_, letter_congr ?_⟩ <;> omega

theorem Fbu.raw_drop {f : Fbu} {a : Nat} (h : a < f.blen) :
    f.raw.drop a = Memory.read f.buf a :: f.raw.drop (a + 1) := by
  rw [List.drop_eq_getElem_cons (by rwa [Fbu.raw_length])]
  simp [Fbu.raw]

theorem Fbu.raw_drop_blen (f : Fbu) : f.raw.drop f.blen = [] := by
  rw [← Fbu.raw_length, List.drop_length]

/-- The model's group `j` is the standard encoding's, with three bytes, two or one of the frame left. -/
theorem Fbu.base64_group {f : Fbu} {j : Nat} (hj : 3 * j < f.blen) :
    (base64 (f.raw.drop (3 * j))).take 4 = (List.range 4).map fun i => f.b64At (4 * j + i) := by
  have hrange : List.range 4 = [0, 1, 2, 3] := rfl
  have hdiv : ∀ i < 4, (4 * j + i) / 4 = j ∧ (4 * j + i) % 4 = i := fun i _ => by omega
  obtain hone | htwo | hthree : f.blen - 3 * j = 1 ∨ f.blen - 3 * j = 2 ∨ 3 ≤ f.blen - 3 * j := by omega
  · have hend : f.raw.drop (3 * j + 1) = [] := by rw [show 3 * j + 1 = f.blen by omega, Fbu.raw_drop_blen]
    rw [Fbu.raw_drop hj, hend]
    simp [hrange, Fbu.b64At, hdiv, hone, b64Char_group, b64Pad, base64]
  · have hend : f.raw.drop (3 * j + 1 + 1) = [] := by rw [show 3 * j + 1 + 1 = f.blen by omega, Fbu.raw_drop_blen]
    rw [Fbu.raw_drop hj, Fbu.raw_drop (by omega), hend]
    simp [hrange, Fbu.b64At, hdiv, htwo, b64Char_group, b64Pad, base64]
  · have htwo : 2 ≤ f.blen - 3 * j := by omega
    rw [Fbu.raw_drop hj, Fbu.raw_drop (by omega), Fbu.raw_drop (by omega)]
    simp [hrange, Fbu.b64At, hdiv, htwo, hthree, b64Char_group, base64]

theorem Fbu.b64_length (f : Fbu) : f.b64.length = b64Length f.blen := by simp [Fbu.b64]

theorem Fbu.b64_getElem? {f : Fbu} {k : Nat} (h : k < b64Length f.blen) : f.b64[k]? = some (f.b64At k) := by
  rw [Fbu.b64, List.getElem?_map, List.getElem?_range h, Option.map_some]

/-- The base64 form of a unit is the standard base64 of its frame. -/
theorem Fbu.base64_raw (f : Fbu) : base64 f.raw = f.b64 := by
  have hlen : (base64 f.raw).length = b64Length f.blen := by rw [base64_length, Fbu.raw_length]
  refine List.ext_getElem? fun k => ?_
  by_cases hk : k < b64Length f.blen
  · have hgroup := Fbu.base64_group (f := f) (j := k / 4) (by unfold b64Length at hk; omega)
    have hmod : k % 4 < 4 := Nat.mod_lt k (by decide)
    have hdiv := Nat.div_add_mod k 4
    have hchar := congrArg (·[k % 4]?) hgroup
    simp only [List.getElem?_take_of_lt hmod, ← base64_drop, List.getElem?_drop, hdiv, List.getElem?_map,
      List.getElem?_range hmod, Option.map_some] at hchar
    rw [hchar, Fbu.b64_getElem? hk]
  · rw [List.getElem?_eq_none (by omega), List.getElem?_eq_none (by rw [Fbu.b64_length]; omega)]

/-! ### RD_B64 and the shape of the form (R166, R167) -/

/-- RD_B64 inside the form answers its character. -/
theorem exec_rdB64 {t : Target} {k : BitVec 16} {s : State} (h : k.toNat < b64Length (s.fbu t).blen) :
    exec (.rdB64 t k) s = .next (answered (BitVec.ofNat 64 ((s.fbu t).b64At k.toNat).toNat) s) := by
  rw [← resultByte_eq, ← respond_ok_eq_answered]
  exact b64_next h

/-- Settles O31: the form of the standard encoding is the model's, so its length is the bound of RD_B64. -/
theorem rdB64ReadsStandardBase64 : Obligations.RdB64ReadsStandardBase64 := by
  refine ⟨fun arg => ⟨?_, ?_⟩, fun s t k _ => ?_, onlyWords_of_both_targets 0x50⟩
  · exact decode_of_anyTargetOps (op := 0x50) (t := .tx) (by decide) rfl
  · exact decode_of_anyTargetOps (op := 0x50) (t := .rx) (by decide) rfl
  · rw [Fbu.base64_raw]
    refine ⟨fun c hc => ?_, fun hnone => ?_, Fbu.b64_length _⟩
    · have hk : k.toNat < b64Length (s.fbu t).blen := Fbu.b64_length _ ▸ (List.getElem?_eq_some_iff.1 hc).1
      obtain rfl : (s.fbu t).b64At k.toNat = c := Option.some.inj ((Fbu.b64_getElem? hk).symm.trans hc)
      exact exec_rdB64 hk
    · have hk : b64Length (s.fbu t).blen ≤ k.toNat := Fbu.b64_length _ ▸ List.getElem?_eq_none_iff.1 hnone
      exact b64_rejected hk

/-- Settles O32: every `=` belongs to the padding, which has at most two characters and ends the form. -/
theorem base64LengthAndPadding : Obligations.Base64LengthAndPadding := by
  intro f hinv
  have hlen : f.b64.length = 4 * ((f.blen + 2) / 3) := f.b64_length
  have hlow := f.four_le_blen
  have hhigh := hinv.blen_le
  obtain ⟨ns, heq⟩ := base64_eq_letters_append_padding f.raw
  rw [Fbu.base64_raw, Fbu.raw_length] at heq
  refine ⟨hlen, by omega, by omega, ?_, fun k hk => ?_⟩
  · rw [heq, List.count_append, List.count_eq_zero_of_not_mem (pad_not_mem_letters ns), List.count_replicate_self,
      Nat.zero_add]
  · by_contra hlt
    have hletter : k < (ns.map letter).length := by
      have := congrArg List.length heq
      rw [List.length_append, List.length_replicate] at this
      omega
    rw [heq, List.getElem?_append_left hletter] at hk
    exact pad_not_mem_letters ns (List.mem_of_getElem? hk)

/-! ### The readouts (R163 to R166, 30_encoding.md R81) -/

/-- The command answers OK with `v` wherever unit `t` holds `f`, and changes nothing but the outputs. -/
structure AnswersFrom (t : Target) (f : Fbu) (i : Instr) (v : Word) : Prop where
  wellFormed : WellFormed i
  exec : ∀ s : State, s.fbu t = f → exec i s = .next (answered v s)

/-- What an observer sees of an OK response with DONE 0. -/
def okObserved (v : Word) : Resp × Bool := ({ rdata := v, code := .ok, done := false }, false)

theorem answered_fbu (v : Word) (s : State) (t : Target) : (answered v s).fbu t = s.fbu t := by cases t <;> rfl

theorem presenting_fbu (s : State) (is : List Instr) (t : Target) : (s.presenting is).fbu t = s.fbu t := by
  cases t <;> rfl

/-- A run over presented commands that leave unit `t` alone, by induction on the commands still waiting. -/
theorem observe_presenting {t : Target} {is : List Instr} {vs : List Word} {s : State}
    (h : List.Forall₂ (AnswersFrom t (s.fbu t)) is vs) :
    observe vs.length (s.presenting is) = vs.map okObserved := by
  generalize hf : s.fbu t = f at h
  induction h generalizing s with
  | nil => rfl
  | @cons i v is vs hi _ ih =>
    have hstep : step (s.presenting (i :: is)) = exec i (s.presenting is) := step_of_presentation hi.wellFormed rfl
    have hexec := hi.exec (s.presenting is) ((presenting_fbu s is t).trans hf)
    rw [List.length_cons, observe_succ (hstep.trans hexec), List.map_cons]
    exact congrArg _ (ih (s := answered v s) ((answered_fbu v s t).trans hf))

theorem answersFrom_getLen (t : Target) (f : Fbu) : AnswersFrom t f (.getLen t) (BitVec.ofNat 64 (f.blen - 4)) where
  wellFormed := rfl
  exec s hf := by rw [exec_getLen, hf, Fbu.blen_eq, Nat.add_sub_cancel_left]

/-- An index below 2^16 is its own 16-bit operand. -/
theorem toNat_ofNat_16 {k : Nat} (h : k < 65536) : (BitVec.ofNat 16 k).toNat = k :=
  (BitVec.toNat_ofNat k 16).trans (Nat.mod_eq_of_lt h)

theorem answersFrom_rdU8At {t : Target} {f : Fbu} {k : Nat} (hinv : f.Inv) (hk : k < f.blen) :
    AnswersFrom t f (.rdU8At t (BitVec.ofNat 16 k)) (BitVec.ofNat 64 (Memory.read f.buf k).toNat) where
  wellFormed := rfl
  exec s hf := by
    subst hf
    have hblen := hinv.blen_le
    change offRead t (BitVec.ofNat 16 k).toNat 1 resultZext s = _
    rw [toNat_ofNat_16 (by omega), offRead_next hk, respond_ok_eq_answered]
    rfl

theorem answersFrom_rdB64 {t : Target} {f : Fbu} {k : Nat} (hinv : f.Inv) (hk : k < b64Length f.blen) :
    AnswersFrom t f (.rdB64 t (BitVec.ofNat 16 k)) (BitVec.ofNat 64 (f.b64At k).toNat) where
  wellFormed := rfl
  exec s hf := by
    subst hf
    have hblen := hinv.blen_le
    have hoperand : (BitVec.ofNat 16 k).toNat = k := toNat_ofNat_16 (by unfold b64Length at hk; omega)
    rw [exec_rdB64 (by rwa [hoperand]), hoperand]

/-- A readout: the length, then one read for each index below `n`. -/
theorem observe_readout {t : Target} {n : Nat} {read : Nat → Instr} {byte : Nat → Byte} {s : State}
    (h : ∀ k < n, AnswersFrom t (s.fbu t) (read k) (BitVec.ofNat 64 (byte k).toNat)) :
    observe (1 + n) (s.presenting (.getLen t :: (List.range n).map read)) =
      (BitVec.ofNat 64 ((s.fbu t).blen - 4) ::
        ((List.range n).map byte).map (fun b => BitVec.ofNat 64 b.toNat)).map okObserved := by
  have hreads : List.Forall₂ (AnswersFrom t (s.fbu t)) ((List.range n).map read)
      (((List.range n).map byte).map fun b => BitVec.ofNat 64 b.toNat) := by
    rw [List.map_map, List.forall₂_map_left_iff, List.forall₂_map_right_iff, List.forall₂_same]
    exact fun k hk => h k (List.mem_range.1 hk)
  have hrun := observe_presenting (hreads.cons (answersFrom_getLen t (s.fbu t)))
  rwa [List.length_cons, List.length_map, List.length_map, List.length_range, Nat.add_comm] at hrun

/-- Settles O33: each offset of the frame is read as its byte. -/
theorem rawReadoutReturnsTheFrame : Obligations.RawReadoutReturnsTheFrame :=
  fun _ t hinv => observe_readout fun _ => answersFrom_rdU8At (hinv.fbu t)

/-- Settles O34: each index of the form is read as its character, and the form is the frame's standard base64. -/
theorem base64ReadoutReturnsTheForm : Obligations.Base64ReadoutReturnsTheForm := by
  intro s t hinv
  rw [Fbu.base64_raw]
  exact observe_readout fun _ => answersFrom_rdB64 (hinv.fbu t)

end Sys2Proof.Machine
end

section
/-! PROOFS. The statements of 44_deframer.md about one FEED: what it answers in each state of the deframer, and what DONE means. -/

namespace Sys2Proof.Machine

open Sys2Proof.Claims

/-! ### The arms of the state table (R181 to R185) -/

theorem exec_feed_tx (b : Byte) (s : State) : exec (.feed .tx b) s = deframerStep b s := rfl

section Arms

variable {s : State}

theorem deframerStep_marker (hs : s.dfr.state = .start) :
    deframerStep 0xFF s =
      .next { s with dfr := { s.dfr with state := .device }, resp := feedResp false, frameDone := false } := by
  rw [deframerStep, hs]
  rfl

theorem deframerStep_discard (hs : s.dfr.state = .start) {b : Byte} (hb : b ≠ 0xFF) :
    deframerStep b s = .next { s with resp := feedResp false, frameDone := false } := by
  rw [deframerStep, hs]
  exact if_neg hb

theorem deframerStep_device (hs : s.dfr.state = .device) (b : Byte) :
    deframerStep b s = .next
      { s with dfr := { s.dfr with capDev := b, state := .command }, resp := feedResp false, frameDone := false } := by
  rw [deframerStep, hs]
  rfl

theorem deframerStep_command (hs : s.dfr.state = .command) (b : Byte) :
    deframerStep b s = .next
      { s with dfr := { s.dfr with capCmd := b, state := .length }, resp := feedResp false, frameDone := false } := by
  rw [deframerStep, hs]
  rfl

/-- State LENGTH: the byte is captured and `RX` reset for every length; the next state, DONE and LEN_OVERFLOW are those of the three
cases (R184). -/
theorem deframerStep_length (hs : s.dfr.state = .length) (b : Byte) :
    ∃ (st : DfrState) (resp : Resp) (diag : BitVec 8),
      deframerStep b s = .next { s with
        rx := s.rx.frameReset s.dfr.capCmd s.dfr.capDev
        dfr := { s.dfr with capLen := b, state := st }
        diag := diag, resp := resp, frameDone := false } ∧
      (b.toNat = 0 → st = .start ∧ resp = feedResp true ∧ diag = s.diag) ∧
      (1 ≤ b.toNat ∧ b.toNat ≤ 251 → st = .data ∧ resp = feedResp false ∧ diag = s.diag) ∧
      (252 ≤ b.toNat → st = .start ∧ resp = feedResp false ∧ diag = s.diag ||| 0x08) := by
  rcases Nat.lt_or_ge 251 b.toNat with hover | hle
  · exact ⟨_, _, _, deframerStep_overflow hs hover, by omega, by omega, fun _ => ⟨rfl, rfl, rfl⟩⟩
  have harm : deframerStep b s = feedLength b s := by rw [deframerStep, hs]
  by_cases hb : b = 0
  · subst hb
    exact ⟨_, _, _, harm, fun _ => ⟨rfl, rfl, rfl⟩, fun h => absurd h.1 (by decide), fun h => absurd h (by decide)⟩
  · have hpos : b.toNat ≠ 0 := fun h0 => hb (BitVec.eq_of_toNat_eq h0)
    have hfeed := harm.trans ((if_neg hb).trans (if_pos hle))
    exact ⟨_, _, _, hfeed, by omega, fun _ => ⟨rfl, rfl, rfl⟩, by omega⟩

/-- The payload under assembly leaves room for its next byte (R190). -/
theorem State.Inv.rx_room (h : s.Inv) (hs : s.dfr.state = .data) : s.rx.blen + 1 ≤ 255 := by
  obtain ⟨-, -, hasm, -⟩ := h
  obtain ⟨hlt, hmax, -, -⟩ := hasm hs
  have hmax' : s.dfr.capLen.toNat ≤ 251 := hmax
  rw [Fbu.blen_eq]
  omega

/-- State DATA: the byte is appended to `RX`, and completes the frame exactly at the declared length (R185). -/
theorem deframerStep_data (h : s.Inv) (hs : s.dfr.state = .data) (b : Byte) :
    ∃ (f : Fbu) (st : DfrState) (resp : Resp), s.rx.append? 1 b.toNat = some f ∧
      deframerStep b s = .next { s with
        rx := f, dfr := { s.dfr with state := st }, resp := resp, frameDone := false } ∧
      (s.rx.lenByte.toNat + 1 = s.dfr.capLen.toNat → st = .start ∧ resp = feedResp true) ∧
      (s.rx.lenByte.toNat + 1 ≠ s.dfr.capLen.toNat → st = .data ∧ resp = feedResp false) := by
  have hroom := h.rx_room hs
  obtain ⟨-, ⟨hwf, -⟩, -, -⟩ := h
  obtain ⟨f, hf, -, -, hlen, -⟩ := Fbu.append?_spec (v := b.toNat) hwf hroom
  have harm : deframerStep b s = feedData b s := by rw [deframerStep, hs]
  rw [feedData, hf] at harm
  by_cases hfull : f.lenByte = s.dfr.capLen
  · have hlast : s.rx.lenByte.toNat + 1 = s.dfr.capLen.toNat := by rw [← hlen, hfull]
    exact ⟨f, _, _, hf, harm.trans (if_pos hfull), fun _ => ⟨rfl, rfl⟩, fun hne => absurd hlast hne⟩
  · have hmore : s.rx.lenByte.toNat + 1 ≠ s.dfr.capLen.toNat := fun heq =>
      hfull (BitVec.eq_of_toNat_eq (hlen.trans heq))
    have hdfr : ({ s.dfr with state := .data } : Dfr) = s.dfr := by rw [← hs]
    refine ⟨f, .data, feedResp false, hf, ?_, fun heq => absurd heq hmore, fun _ => ⟨rfl, rfl⟩⟩
    rw [hdfr]
    exact harm.trans (if_neg hfull)

end Arms

/-- Settles O39: the marker's arm, and the arm that discards. -/
theorem feedInStartFindsTheMarker : Obligations.FeedInStartFindsTheMarker :=
  fun _ _ hs => ⟨fun hb => hb ▸ deframerStep_marker hs, deframerStep_discard hs⟩

/-- Settles O40: the two capturing arms. -/
theorem feedCapturesTheHeader : Obligations.FeedCapturesTheHeader :=
  fun _ b => ⟨fun hs => deframerStep_device hs b, fun hs => deframerStep_command hs b⟩

/-- Settles O41: FrameReset makes the header the whole frame and misses the stale bytes; the cases are those of the arm. -/
theorem feedInLengthStartsOrAbandonsTheFrame : Obligations.FeedInLengthStartsOrAbandonsTheFrame := by
  intro s b hrx hs
  obtain ⟨st, resp, diag, hfeed, hcases⟩ := deframerStep_length hs b
  exact ⟨_, hfeed, Fbu.frameReset_raw hrx.1 _ _, rfl, fun _ => Fbu.frameReset_read_payload hrx.1 _ _, rfl, rfl, rfl, rfl, rfl,
    rfl, hcases⟩

/-! ### One payload byte -/

/-- An append that fits, as the write of 41_writes.md R110 that it is. -/
theorem append?_appended {t : Target} {w v : Nat} {s : State} {f : Fbu} (hwf : Memory.wf (s.fbu t).buf = true)
    (hf : (s.fbu t).append? w v = some f) : Appended t w v s (answered 0 (s.setFbu t f)) := by
  obtain ⟨s', hnext, happ⟩ := append_appended v hwf (Fbu.append?_some_le hf)
  rw [append_next hf] at hnext
  cases hnext
  exact happ

theorem leBytes_one (b : Byte) : leBytes 1 b.toNat = [b] := by simp [leBytes]

/-- A payload byte is added behind the packet in `RX`. -/
theorem carries_of_payload_byte {s : State} {f : Fbu} {b c d : Byte} {p : List Byte} (hwf : Memory.wf s.rx.buf = true)
    (hf : s.rx.append? 1 b.toNat = some f) (hp : s.rx.Carries c d p) : f.Carries c d (p ++ [b]) := by
  have happ := append?_appended (t := .rx) (s := s) hwf hf
  exact leBytes_one b ▸ carries_of_appended happ hp

/-- Settles O42: the byte is a one-byte append to `RX`, and the two cases are those of the arm. -/
theorem feedInDataAppendsThePayload : Obligations.FeedInDataAppendsThePayload := by
  intro s b hinv hs
  obtain ⟨f, st, resp, hf, hfeed, hcases⟩ := deframerStep_data hinv hs b
  obtain ⟨-, ⟨hwf, -⟩, -, -⟩ := hinv
  obtain ⟨hlen, hnew, hrest, hcur, -⟩ := append?_appended (t := .rx) (s := s) hwf hf
  have hbyte : Memory.read f.buf s.rx.blen = b := by simpa [answered] using hnew 0 Nat.one_pos
  refine ⟨_, hfeed, hlen, hbyte, fun a h3 hne => hrest a h3 ?_, hcur, rfl, rfl, rfl, rfl, rfl, rfl, rfl, hcases⟩
  simp only [fbu_rx]
  omega

/-! ### What every FEED answers (R180) -/

/-- A FEED answers OK with RDATA the DONE bit, and sets LEN_OVERFLOW for a length above 251 and no other bit of DIAG. -/
theorem deframerStep_answers_ok {s : State} (h : s.Inv) (b : Byte) :
    ∃ s' done, deframerStep b s = .next s' ∧ s'.resp = feedResp done ∧
      s'.diag = if s.dfr.state = .length ∧ 251 < b.toNat then s.diag ||| 0x08 else s.diag := by
  cases hs : s.dfr.state with
  | start =>
    by_cases hb : b = 0xFF
    · exact ⟨_, false, hb ▸ deframerStep_marker hs, rfl, by simp⟩
    · exact ⟨_, false, deframerStep_discard hs hb, rfl, by simp⟩
  | device => exact ⟨_, false, deframerStep_device hs b, rfl, by simp⟩
  | command => exact ⟨_, false, deframerStep_command hs b, rfl, by simp⟩
  | length =>
    obtain ⟨st, resp, diag, hfeed, hzero, hnormal, hover⟩ := deframerStep_length hs b
    rcases Nat.lt_or_ge 251 b.toNat with hgt | hle
    · obtain ⟨rfl, rfl, rfl⟩ := hover hgt
      exact ⟨_, false, hfeed, rfl, by simp [hgt]⟩
    · rcases Nat.eq_zero_or_pos b.toNat with h0 | hpos
      · obtain ⟨rfl, rfl, rfl⟩ := hzero h0
        exact ⟨_, true, hfeed, rfl, by simp [h0]⟩
      · obtain ⟨rfl, rfl, rfl⟩ := hnormal ⟨hpos, hle⟩
        exact ⟨_, false, hfeed, rfl, by simp [Nat.not_lt.2 hle]⟩
  | data =>
    obtain ⟨f, st, resp, -, hfeed, hlast, hmore⟩ := deframerStep_data h hs b
    by_cases hlen : s.rx.lenByte.toNat + 1 = s.dfr.capLen.toNat
    · obtain ⟨rfl, rfl⟩ := hlast hlen
      exact ⟨_, true, hfeed, rfl, by simp⟩
    · obtain ⟨rfl, rfl⟩ := hmore hlen
      exact ⟨_, false, hfeed, rfl, by simp⟩

/-- Settles O38: the decoder, what every state answers, and the two ways to be illegal. -/
theorem feedAlwaysAnswersOk : Obligations.FeedAlwaysAnswersOk := by
  refine ⟨fun arg => decode_cmdWord .tx 0x60 arg rfl rfl, fun s b hinv => ?_, fun s b => ?_,
    onlyWords_of_txOnlyOps (by decide)⟩
  · obtain ⟨s', done, hfeed, hresp, hdiag⟩ := deframerStep_answers_ok hinv b
    obtain ⟨htx, hinput, hframeDone⟩ := deframerStep_untouched hfeed
    exact ⟨s', done, hfeed, hresp, hframeDone, htx, hinput, hdiag⟩
  · rw [exec_txOnly_of_rx rfl rfl, raise_illegalOp_eq_rejected]

/-- Settles O7: the stream port's step is the deframer's step, and so FEED's. -/
theorem streamByteIsFeed : Obligations.StreamByteIsFeed := by
  intro s b rest hin
  obtain ⟨s', hfeed⟩ := deframerStep_proceeds b { s with input := rest }
  exact ⟨s', hfeed, (step_of_stream hin).trans (streamByte_of_deframerStep hfeed)⟩

/-! ### DONE (R186) -/

/-- The header of a packet's frame is the first four bytes on the wire. -/
theorem Fbu.Carries.raw_take {f : Fbu} {c d : Byte} {p : List Byte} (h : f.Carries c d p) :
    f.raw.take 4 = [0xFF, d, c, f.lenByte] := by
  rw [Fbu.raw_eq_header_payload, h.marker, h.device, h.command]
  rfl

/-- A payload under assembly belongs to the packet that the captured header declares. -/
theorem State.Inv.rx_carries {s : State} (h : s.Inv) (hs : s.dfr.state = .data) :
    s.rx.Carries s.dfr.capCmd s.dfr.capDev s.rx.payload := by
  obtain ⟨-, ⟨-, hmarker, -⟩, hasm, -⟩ := h
  obtain ⟨-, -, hdev, hcmd⟩ := hasm hs
  exact ⟨hmarker, hdev, hcmd, rfl⟩

/-- A FEED that answers DONE 1 has completed the declared packet: with its length byte 0, or with its last payload byte. -/
theorem deframerStep_done {b : Byte} {s s' : State} (h : s.Inv) (hfeed : deframerStep b s = .next s')
    (hdone : s'.resp.done = true) :
    s'.dfr.state = .start ∧ s'.rx.lenByte = s'.dfr.capLen ∧ ∃ p, s'.rx.Carries s'.dfr.capCmd s'.dfr.capDev p := by
  have hinv := h
  obtain ⟨-, ⟨hwf, -⟩, -, -⟩ := h
  rcases deframerStep_cases hfeed with ⟨_, _, rfl⟩ | ⟨_, _, rfl⟩ | ⟨_, rfl⟩ | ⟨_, rfl⟩ | ⟨_, rfl, rfl⟩ | ⟨_, _, _, rfl⟩ |
    ⟨_, _, rfl⟩ | ⟨_, _, rfl⟩ | ⟨f, hs, hf, hlen, rfl⟩ | ⟨_, _, _, _, rfl⟩
  · cases hdone
  · cases hdone
  · cases hdone
  · cases hdone
  · exact ⟨rfl, Fbu.frameReset_lenByte hwf _ _, [], Fbu.frameReset_carries hwf _ _⟩
  · cases hdone
  · cases hdone
  · cases hdone
  · exact ⟨rfl, hlen, _, carries_of_payload_byte hwf hf (hinv.rx_carries hs)⟩
  · cases hdone

/-- Settles O43: no effect but a FEED's answers DONE 1, and a FEED's does with the declared packet in `RX`. -/
theorem doneMarksACompleteFrame : Obligations.DoneMarksACompleteFrame := by
  intro i s s' hinv hexec hdone
  cases exec_effect hexec with
  | fed b s' hi hfeed =>
    obtain ⟨hstart, hlen, p, hp⟩ := deframerStep_done hinv hfeed hdone
    exact ⟨⟨b, hi⟩, hstart, by rw [Fbu.blen_eq, hlen], by rw [hp.raw_take, hlen]⟩
  | raised | answered | reset | wrote | seqRead | cleared => cases hdone

end Sys2Proof.Machine
end

section
/-! PROOFS. The statements of 44_deframer.md about runs over stream bytes: the way back to START, and the frame fed whole. -/

namespace Sys2Proof.Machine

open Sys2Proof.Claims

/-! ### Recovery (R193) -/

/-- How many stream bytes the deframer takes at most until it is in START again. -/
def bytesToStart (s : State) : Nat :=
  match s.dfr.state with
  | .start => 0
  | .device => 254
  | .command => 253
  | .length => 252
  | .data => s.dfr.capLen.toNat - s.rx.lenByte.toNat

theorem bytesToStart_le {s : State} (h : s.Inv) : bytesToStart s ≤ 254 := by
  obtain ⟨-, -, hasm, -⟩ := h
  cases hs : s.dfr.state with
  | data =>
    obtain ⟨-, hmax, -, -⟩ := hasm hs
    simp only [bytesToStart, hs]
    exact (Nat.sub_le _ _).trans (Nat.le_trans hmax (by decide))
  | start | device | command | length => simp [bytesToStart, hs]

/-- Outside START every byte, whatever it is, brings the deframer nearer to it. -/
theorem bytesToStart_decreases {b : Byte} {s s' : State} (h : s.Inv) (hs : s.dfr.state ≠ .start)
    (hfeed : deframerStep b s = .next s') : bytesToStart s' < bytesToStart s := by
  cases hst : s.dfr.state with
  | start => exact absurd hst hs
  | device =>
    cases (deframerStep_device hst b).symm.trans hfeed
    simp [bytesToStart, hst]
  | command =>
    cases (deframerStep_command hst b).symm.trans hfeed
    simp [bytesToStart, hst]
  | length =>
    obtain ⟨st, resp, diag, hlength, hzero, hnormal, hover⟩ := deframerStep_length hst b
    cases hlength.symm.trans hfeed
    rcases Nat.eq_zero_or_pos b.toNat with h0 | hpos
    · simp [bytesToStart, hst, hzero h0]
    · rcases Nat.lt_or_ge 251 b.toNat with hgt | hle
      · simp [bytesToStart, hst, hover hgt]
      · simp only [bytesToStart, hst, hnormal ⟨hpos, hle⟩]
        omega
  | data =>
    obtain ⟨f, st, resp, hf, hdata, hlast, hmore⟩ := deframerStep_data h hst b
    cases hdata.symm.trans hfeed
    obtain ⟨-, ⟨hwf, -⟩, hasm, -⟩ := h
    obtain ⟨hlt, -⟩ := hasm hst
    obtain ⟨hlen, -⟩ := append?_appended (t := .rx) (s := s) hwf hf
    have hlen' : f.lenByte.toNat = s.rx.lenByte.toNat + 1 := hlen
    by_cases hfull : s.rx.lenByte.toNat + 1 = s.dfr.capLen.toNat
    · simp only [bytesToStart, hst, hlast hfull]
      omega
    · simp only [bytesToStart, hst, hmore hfull]
      omega

/-- As many bytes as the bound says do bring it to START, by induction on the bytes. -/
theorem run_reaches_start {s : State} (bs : List Byte) (h : s.Inv) (hle : bytesToStart s ≤ bs.length) :
    ∃ n s', n ≤ bs.length ∧ Host.Core.run Sys2Proof.core n (s.streaming bs) = .next s' ∧ s'.dfr.state = .start := by
  induction bs generalizing s with
  | nil =>
    refine ⟨0, _, Nat.le_refl _, rfl, ?_⟩
    by_contra hs
    obtain ⟨s', hfeed⟩ := deframerStep_proceeds 0 s
    exact Nat.not_lt_zero _ (Nat.lt_of_lt_of_le (bytesToStart_decreases h hs hfeed) hle)
  | cons b bs ih =>
    by_cases hs : s.dfr.state = .start
    · exact ⟨0, _, Nat.zero_le _, rfl, hs⟩
    · obtain ⟨s1, hfeed⟩ := deframerStep_proceeds b (s.streaming bs)
      have hdecr : bytesToStart s1 < bytesToStart s := bytesToStart_decreases (s := s.streaming bs) h hs hfeed
      have hinv1 : s1.Inv := deframerStep_inv (s := s.streaming bs) h hfeed
      rw [List.length_cons] at hle
      obtain ⟨n, s', hn, hrun, hstart⟩ :=
        ih (s := { s1 with frameDone := s1.resp.done }) hinv1 (Nat.le_of_lt_succ (Nat.lt_of_lt_of_le hdecr hle))
      exact ⟨n + 1, s', Nat.succ_le_succ hn, (core_run_succ n (step_streaming hfeed)).trans hrun, hstart⟩

/-- Settles O44: the bound is 254 in every state. -/
theorem deframerRecoversWithin254Bytes : Obligations.DeframerRecoversWithin254Bytes := by
  intro s bs hinv hlen
  exact hlen ▸ run_reaches_start bs hinv (hlen ▸ bytesToStart_le hinv)

/-! ### A run that pulses DONE once, at its end -/

/-- A run of `k + 1` stream bytes from `s` to `s'`, DONE and `frame_done` 0 on each of the first `k` and 1 on the last. -/
inductive PulsesAtEnd : Nat → State → State → Prop where
  | last {s s' : State} (hstep : step s = .next s') (hresp : s'.resp = feedResp true) (hpulse : s'.frameDone = true) :
      PulsesAtEnd 0 s s'
  | more {k : Nat} {s s1 s' : State} (hstep : step s = .next s1) (hresp : s1.resp = feedResp false)
      (hpulse : s1.frameDone = false) (hrest : PulsesAtEnd k s1 s') : PulsesAtEnd (k + 1) s s'

theorem PulsesAtEnd.run {k : Nat} {s s' : State} (h : PulsesAtEnd k s s') :
    Host.Core.run Sys2Proof.core (k + 1) s = .next s' := by
  induction h with
  | last hstep => exact core_run_succ 0 hstep
  | more hstep _ _ _ ih => exact (core_run_succ _ hstep).trans ih

theorem PulsesAtEnd.resp {k : Nat} {s s' : State} (h : PulsesAtEnd k s s') : s'.resp = feedResp true := by
  induction h with
  | last _ hresp => exact hresp
  | more _ _ _ _ ih => exact ih

/-- The answer of each of its steps. -/
theorem PulsesAtEnd.answer {k n : Nat} {s s' : State} (h : PulsesAtEnd k s s') (hn : n ≤ k) :
    ∃ s1, Host.Core.run Sys2Proof.core (n + 1) s = .next s1 ∧ s1.resp = feedResp (decide (n = k)) ∧
      s1.frameDone = s1.resp.done := by
  induction h generalizing n with
  | last hstep hresp hpulse =>
    obtain rfl : n = 0 := Nat.le_zero.1 hn
    exact ⟨_, core_run_succ 0 hstep, hresp, by rw [hpulse, hresp]; rfl⟩
  | more hstep hresp hpulse _ ih =>
    cases n with
    | zero => exact ⟨_, core_run_succ 0 hstep, hresp, by rw [hpulse, hresp]; rfl⟩
    | succ n =>
      obtain ⟨s1, hrun, hresp1, hpulse1⟩ := ih (Nat.le_of_succ_le_succ hn)
      exact ⟨s1, (core_run_succ _ hstep).trans hrun, by simpa using hresp1, hpulse1⟩

/-! ### A frame fed whole (R194) -/

/-- `s'` is `s` after the whole frame of a packet was taken from the stream. -/
structure FrameReceived (s : State) (c d : Byte) (p : List Byte) (s' : State) : Prop where
  packet : s'.rx.Carries c d p
  cur : s'.rx.cur = 4
  start : s'.dfr.state = .start
  tx : s'.tx = s.tx
  diag : s'.diag = s.diag

/-- From DATA: the bytes still missing complete the packet, by induction on the bytes after the next one. -/
theorem feed_payload {s : State} {c d : Byte} {p : List Byte} (b : Byte) (bs : List Byte) (hinv : s.Inv)
    (hs : s.dfr.state = .data) (hp : s.rx.Carries c d p) (hcur : s.rx.cur = 4)
    (hlen : p.length + (bs.length + 1) = s.dfr.capLen.toNat) :
    ∃ s', PulsesAtEnd bs.length (s.streaming (b :: bs)) s' ∧ FrameReceived s c d (p ++ b :: bs) s' := by
  rw [hp.length] at hlen
  induction bs generalizing s p b with
  | nil =>
    obtain ⟨f, st, resp, hf, hfeed, hlast, -⟩ := deframerStep_data (s := s.streaming []) hinv hs b
    obtain ⟨rfl, rfl⟩ := hlast hlen
    obtain ⟨-, ⟨hwf, -⟩, -, -⟩ := hinv
    exact ⟨_, .last (step_streaming hfeed) rfl rfl, carries_of_payload_byte hwf hf hp, (Fbu.append?_cur hf).trans hcur,
      rfl, rfl, rfl⟩
  | cons b' bs ih =>
    obtain ⟨f, st, resp, hf, hfeed, -, hmore⟩ := deframerStep_data (s := s.streaming (b' :: bs)) hinv hs b
    rw [List.length_cons] at hlen
    have hnotLast : s.rx.lenByte.toNat + 1 ≠ s.dfr.capLen.toNat := by omega
    obtain ⟨rfl, rfl⟩ := hmore hnotLast
    have hinv1 := deframerStep_inv (s := s.streaming (b' :: bs)) hinv hfeed
    obtain ⟨-, ⟨hwf, -⟩, -, -⟩ := hinv
    have hp1 := carries_of_payload_byte hwf hf hp
    have hlen1 : f.lenByte.toNat + (bs.length + 1) = s.dfr.capLen.toNat := by
      rw [← hp1.length, List.length_append, hp.length, List.length_singleton]
      omega
    obtain ⟨s', hpulses, hframe⟩ := ih b' hinv1 rfl hp1 ((Fbu.append?_cur hf).trans hcur) hlen1
    rw [List.append_assoc] at hframe
    obtain ⟨packet, cur, start, tx, diag⟩ := hframe
    exact ⟨s', .more (step_streaming hfeed) rfl rfl hpulses, packet, cur, start, tx, diag⟩

/-- From LENGTH: the length byte empties the packet, and its payload, if there is one, fills it. -/
theorem feed_length_payload {s : State} (payload : List Byte) (hinv : s.Inv) (hs : s.dfr.state = .length)
    (hlen : payload.length ≤ 251) :
    ∃ s', PulsesAtEnd payload.length (s.streaming (BitVec.ofNat 8 payload.length :: payload)) s' ∧
      FrameReceived s s.dfr.capCmd s.dfr.capDev payload s' := by
  have hbyte : (BitVec.ofNat 8 payload.length).toNat = payload.length :=
    (BitVec.toNat_ofNat _ _).trans (Nat.mod_eq_of_lt (by omega))
  obtain ⟨st, resp, diag, hfeed, hzero, hnormal, -⟩ :=
    deframerStep_length (s := s.streaming payload) hs (BitVec.ofNat 8 payload.length)
  have hinv1 := deframerStep_inv (s := s.streaming payload) hinv hfeed
  obtain ⟨-, ⟨hwf, -⟩, -, -⟩ := hinv
  have hempty := Fbu.frameReset_carries hwf s.dfr.capCmd s.dfr.capDev
  cases payload with
  | nil =>
    obtain ⟨rfl, rfl, rfl⟩ := hzero hbyte
    exact ⟨_, .last (step_streaming hfeed) rfl rfl, hempty, rfl, rfl, rfl, rfl⟩
  | cons b bs =>
    rw [List.length_cons] at hbyte hlen
    obtain ⟨rfl, rfl, rfl⟩ := hnormal (by rw [List.length_cons]; omega)
    obtain ⟨s', hpulses, packet, cur, start, tx, diag⟩ :=
      feed_payload b bs hinv1 rfl hempty rfl ((Nat.zero_add _).trans hbyte.symm)
    exact ⟨s', .more (step_streaming hfeed) rfl rfl hpulses, packet, cur, start, tx, diag⟩

/-- From START: the marker and two captured bytes lead to LENGTH with the frame's header. -/
theorem feed_frame {s : State} (d c : Byte) (payload : List Byte) (hinv : s.Inv) (hs : s.dfr.state = .start)
    (hlen : payload.length ≤ 251) :
    ∃ s', PulsesAtEnd (payload.length + 3)
        (s.streaming ([0xFF, d, c, BitVec.ofNat 8 payload.length] ++ payload)) s' ∧
      FrameReceived s c d payload s' := by
  obtain ⟨htx, hrx, -, hdiag⟩ := hinv
  have hinv3 : ({ s with
      dfr := ⟨.length, d, c, s.dfr.capLen⟩, resp := feedResp false, frameDone := false } : State).Inv :=
    ⟨htx, hrx, nofun, hdiag⟩
  obtain ⟨s', hpulses, packet, cur, start, tx, diag⟩ := feed_length_payload payload hinv3 rfl hlen
  exact ⟨s', .more (step_streaming (deframerStep_marker hs)) rfl rfl
    (.more (step_streaming (deframerStep_device rfl d)) rfl rfl
      (.more (step_streaming (deframerStep_command rfl c)) rfl rfl hpulses)), packet, cur, start, tx, diag⟩

/-- Settles O45: the run pulses DONE on its last byte, and then `RX` carries the packet. -/
theorem wellFormedFrameIsReassembled : Obligations.WellFormedFrameIsReassembled := by
  intro s d c payload hinv hs hlen
  obtain ⟨s', hpulses, packet, cur, start, tx, diag⟩ := feed_frame d c payload hinv hs hlen
  rw [Nat.add_comm 4]
  refine ⟨fun n hn => ?_, s', hpulses.run, packet.raw, cur, start, tx, diag⟩
  obtain ⟨s1, hrun, hresp, hpulse⟩ := hpulses.answer (n := n) (by omega)
  refine ⟨s1, hrun, by rw [hresp]; rfl, ?_, hpulse⟩
  rw [hresp]
  exact decide_eq_decide.2 (by omega)

/-- Settles O46: the frame of `TX` is that of the packet it carries, and so is the one received. -/
theorem deframerInvertsFramer : Obligations.DeframerInvertsFramer := by
  intro s hinv hs
  have htx := hinv.fbu .tx
  obtain ⟨-, hmarker, hmax, -⟩ := htx
  have hlen : s.tx.payload.length ≤ 251 := (Fbu.payload_length _).trans_le hmax
  have hsent : s.tx.Carries (Memory.read s.tx.buf 2) (Memory.read s.tx.buf 1) s.tx.payload := ⟨hmarker, rfl, rfl, rfl⟩
  obtain ⟨s', hpulses, packet, -, start, tx, -⟩ :=
    feed_frame (Memory.read s.tx.buf 1) (Memory.read s.tx.buf 2) s.tx.payload hinv hs hlen
  have hblen : s.tx.blen = s.tx.payload.length + 3 + 1 := by rw [Fbu.blen_eq, Fbu.payload_length, Nat.add_comm]
  have hrun := hpulses.run
  rw [← hsent.raw, ← hblen] at hrun
  exact ⟨s', hrun, packet.raw.trans hsent.raw.symm, tx, start, by rw [hpulses.resp]; rfl⟩

end Sys2Proof.Machine
end

section
/-! PROOFS. The statements of 45_status_diag.md: RD_STATUS with the capture registers it reads, RD_DIAG and CLR_DIAG. -/

namespace Sys2Proof.Machine

open Sys2Proof.Claims

/-! ### The STATUS view (R210, 10_state.md R32) -/

/-- The number that the STATUS view stands for: each field at its own weight. -/
theorem toNat_statusWord (d : Dfr) :
    (statusWord d).toNat = d.capLen.toNat * 2 ^ 24 + d.capCmd.toNat * 2 ^ 16 + d.capDev.toNat * 2 ^ 8 +
      d.state.code.toNat := by
  rw [statusWord, BitVec.toNat_append, BitVec.toNat_append, BitVec.toNat_append, BitVec.toNat_append,
    ← Nat.shiftLeft_add_eq_or_of_lt d.state.code.isLt, ← Nat.shiftLeft_add_eq_or_of_lt (0#5).isLt,
    ← Nat.shiftLeft_add_eq_or_of_lt d.capDev.isLt, ← Nat.shiftLeft_add_eq_or_of_lt d.capCmd.isLt]
  simp only [Nat.shiftLeft_eq, BitVec.toNat_ofNat]
  omega

/-- A slice of a word is known by its number. -/
theorem extractLsb'_eq_of_toNat {v : Word} {lo n : Nat} {x : BitVec n} (h : v.toNat / 2 ^ lo % 2 ^ n = x.toNat) :
    v.extractLsb' lo n = x :=
  BitVec.eq_of_toNat_eq (by rw [BitVec.extractLsb'_toNat, Nat.shiftRight_eq_div_pow, h])

/-- The fields of RD_STATUS's result, and 0 in every other bit. -/
theorem statusWord_fields (d : Dfr) {v : Word} (hv : v = (statusWord d).setWidth 64) :
    v.extractLsb' 0 3 = d.state.code ∧ v.extractLsb' 3 5 = 0 ∧ v.extractLsb' 8 8 = d.capDev ∧
      v.extractLsb' 16 8 = d.capCmd ∧ v.extractLsb' 24 8 = d.capLen ∧ v.extractLsb' 32 32 = 0 := by
  have hcode := d.state.code.isLt
  have hdev := d.capDev.isLt
  have hcmd := d.capCmd.isLt
  have hlen := d.capLen.isLt
  have hnat : v.toNat = d.capLen.toNat * 2 ^ 24 + d.capCmd.toNat * 2 ^ 16 + d.capDev.toNat * 2 ^ 8 +
      d.state.code.toNat := by rw [hv, BitVec.toNat_setWidth_of_le (by decide), toNat_statusWord]
  refine ⟨extractLsb'_eq_of_toNat ?_, extractLsb'_eq_of_toNat ?_, extractLsb'_eq_of_toNat ?_,
    extractLsb'_eq_of_toNat ?_, extractLsb'_eq_of_toNat ?_, extractLsb'_eq_of_toNat ?_⟩ <;>
    simp only [hnat, BitVec.ofNat_eq_ofNat, BitVec.toNat_ofNat] <;> omega

/-- RD_STATUS on `TX` answers the STATUS view, zero-extended. -/
theorem exec_rdStatus_tx (s : State) :
    exec (.rdStatus .tx) s = .next (answered ((statusWord s.dfr).setWidth 64) s) := rfl

/-! ### The capture registers (10_state.md R28, R32) -/

/-- The capture registers after the byte `b`: each takes it in that register's own state, and keeps its
value in any other. -/
structure Dfr.Captures (b : Byte) (d d' : Dfr) : Prop where
  dev : d'.capDev = if d.state = .device then b else d.capDev
  cmd : d'.capCmd = if d.state = .command then b else d.capCmd
  len : d'.capLen = if d.state = .length then b else d.capLen

theorem deframerStep_captures {b : Byte} {s s' : State} (h : deframerStep b s = .next s') : s.dfr.Captures b s'.dfr := by
  rcases deframerStep_cases h with ⟨hs, -, rfl⟩ | ⟨hs, -, rfl⟩ | ⟨hs, rfl⟩ | ⟨hs, rfl⟩ | ⟨hs, -, rfl⟩ |
    ⟨hs, -, -, rfl⟩ | ⟨hs, -, rfl⟩ | ⟨hs, -, rfl⟩ | ⟨_, hs, -, -, rfl⟩ | ⟨_, hs, -, -, rfl⟩ <;>
    constructor <;> simp [hs]

/-- A register that FEED rewrites in the state `own` only, and with the byte it is given, is changed by no other command. -/
theorem exec_changes_capture {reg : Dfr → Byte} {own : DfrState}
    (hreg : ∀ {b s s'}, deframerStep b s = .next s' → reg s'.dfr = if s.dfr.state = own then b else reg s.dfr)
    {i : Instr} {s s' : State} (h : exec i s = .next s') (hne : reg s'.dfr ≠ reg s.dfr) :
    s.dfr.state = own ∧ i = .feed .tx (reg s'.dfr) := by
  obtain ⟨-, -, hfeed, -⟩ := unitsAreWrittenOnlyByTheirOwners i s s' h
  obtain ⟨b, rfl⟩ := hfeed fun hdfr => hne (congrArg reg hdfr)
  have hrewrite := hreg ((exec_feed_tx b s).symm.trans h)
  by_cases hown : s.dfr.state = own
  · rw [if_pos hown] at hrewrite
    exact ⟨hown, by rw [hrewrite]⟩
  · rw [if_neg hown] at hrewrite
    exact absurd hrewrite hne

/-- Settles O48: the STATUS view's fields, and the one FEED that rewrites each capture register. -/
theorem rdStatusReturnsTheDeframerView : Obligations.RdStatusReturnsTheDeframerView := by
  refine ⟨fun arg => decode_cmdWord .tx 0x61 arg rfl rfl, ⟨rfl, rfl, rfl, rfl, rfl⟩,
    fun s => ⟨_, exec_rdStatus_tx s, statusWord_fields s.dfr rfl⟩, fun i s s' h => ⟨?_, ?_, ?_⟩,
    onlyWords_of_txOnlyOps (by decide)⟩
  · exact exec_changes_capture (reg := Dfr.capDev) (fun hfeed => (deframerStep_captures hfeed).dev) h
  · exact exec_changes_capture (reg := Dfr.capCmd) (fun hfeed => (deframerStep_captures hfeed).cmd) h
  · exact exec_changes_capture (reg := Dfr.capLen) (fun hfeed => (deframerStep_captures hfeed).len) h

/-! ### DIAG (R211, R212) -/

/-- What RD_DIAG reads, bit by bit: bits 3:0 of DIAG, and 0 in the reserved bits. -/
theorem getLsbD_diagRead (d : BitVec 8) (n : Nat) : (diagRead d).getLsbD n = (d.getLsbD n && decide (n < 4)) := by
  have hmask : (0x0F : BitVec 8) = BitVec.ofNat 8 (2 ^ 4 - 1) := rfl
  rw [diagRead, hmask, BitVec.getLsbD_and, BitVec.getLsbD_ofNat, Nat.testBit_two_pow_sub_one]
  by_cases hn : n < 8
  · simp [hn]
  · simp [BitVec.getLsbD_of_ge d n (Nat.le_of_not_lt hn)]

/-- Bit by bit, whatever the bit was: CLR_DIAG keeps exactly the bits that its mask does not select. -/
theorem getLsbD_diagClear_eq (m : BitVec 4) (d : BitVec 8) (n : Nat) :
    (diagClear m d).getLsbD n = (d.getLsbD n && !m.getLsbD n) := by
  cases hd : d.getLsbD n with
  | true => rw [getLsbD_diagClear hd, Bool.true_and]
  | false => simp [diagClear, hd]

/-- RD_DIAG on `TX` answers the sticky bits and changes nothing but the outputs. -/
theorem exec_rdDiag_tx (s : State) : exec (.rdDiag .tx) s = .next (answered (resultByte (diagRead s.diag)) s) := rfl

/-- CLR_DIAG on `TX` changes only DIAG and the outputs. -/
theorem exec_clrDiag_tx (m : BitVec 4) (s : State) :
    exec (.clrDiag .tx m) s = .next (answered 0 { s with diag := diagClear m s.diag }) := rfl

/-- Settles O49: the result is DIAG without its reserved bits, zero-extended. -/
theorem rdDiagReturnsTheStickyBits : Obligations.RdDiagReturnsTheStickyBits := by
  refine ⟨fun arg => decode_cmdWord .tx 0x62 arg rfl rfl,
    fun s => ⟨_, exec_rdDiag_tx s, fun n hn => ?_, fun n hn => ?_⟩,
    onlyWords_of_txOnlyOps (by decide)⟩
  · have hword : n < 64 := by omega
    simp [resultByte, getLsbD_diagRead, hn, hword]
  · simp [resultByte, getLsbD_diagRead, hn]

/-- Settles O50: the mask has no bit above 3, so those bits of DIAG stay. -/
theorem clrDiagIsWriteOneToClear : Obligations.ClrDiagIsWriteOneToClear := by
  refine ⟨fun arg => decode_cmdWord .tx 0x63 arg rfl rfl,
    fun s m => ⟨_, exec_clrDiag_tx m s, fun n _ => ?_, fun n hn => ?_⟩,
    fun s m => ?_, onlyWords_of_txOnlyOps (by decide)⟩
  · exact getLsbD_diagClear_eq m s.diag n
  · rw [getLsbD_diagClear_eq, BitVec.getLsbD_of_ge m n hn, Bool.not_false, Bool.and_true]
  · rw [exec_txOnly_of_rx rfl rfl, raise_illegalOp_eq_rejected]

end Sys2Proof.Machine
end

section
/-! PROOFS. The statement of 60_exceptions.md: a response other than OK is an error raised, and raising it changes nothing else. -/

namespace Sys2Proof.Machine

open Sys2Proof.Claims

/-- Raising OversizeWrite is the rejection of 60_exceptions.md R222. -/
theorem raise_oversizeWrite_eq_rejected (s : State) : raise .oversizeWrite s = rejected .oversizeWrite 0x01 s := rfl

/-- The one arm of FEED that does not answer OK is the payload byte with no room in `RX` (44_deframer.md R185); the invariant
excludes it (`deframerStep_answers_ok`), and no invariant is assumed here. -/
theorem deframerStep_eq_raise_of_error {b : Byte} {s s' : State} (h : deframerStep b s = .next s')
    (herr : s'.resp.code ≠ .ok) : s' = raise .oversizeWrite s := by
  rcases deframerStep_cases h with ⟨-, -, rfl⟩ | ⟨-, -, rfl⟩ | ⟨-, rfl⟩ | ⟨-, rfl⟩ | ⟨-, -, rfl⟩ | ⟨-, -, -, rfl⟩ |
    ⟨-, -, rfl⟩ | ⟨-, -, hraise⟩ | ⟨_, -, -, -, rfl⟩ | ⟨_, -, -, -, rfl⟩
  · exact absurd rfl herr
  · exact absurd rfl herr
  · exact absurd rfl herr
  · exact absurd rfl herr
  · exact absurd rfl herr
  · exact absurd rfl herr
  · exact absurd rfl herr
  · exact hraise
  · exact absurd rfl herr
  · exact absurd rfl herr

/-- A command that does not answer OK raises one of the three error kinds with a code of its own (60_exceptions.md R221), and does
nothing more. -/
theorem exec_eq_raise_of_error {i : Instr} {s s' : State} (h : exec i s = .next s') (herr : s'.resp.code ≠ .ok) :
    s' = raise .oversizeWrite s ∨ s' = raise .outOfRangeRead s ∨ s' = raise .illegalOp s := by
  cases exec_effect h with
  | raised k hk =>
    rcases hk with rfl | rfl | rfl
    · exact .inl rfl
    · exact .inr (.inl rfl)
    · exact .inr (.inr rfl)
  | fed b s' hi hfed => exact .inl (deframerStep_eq_raise_of_error hfed herr)
  | answered v => exact absurd rfl herr
  | reset c d hi => exact absurd rfl herr
  | wrote w v f hi hf => exact absurd rfl herr
  | seqRead t w v hi hcur => exact absurd rfl herr
  | cleared m hi => exact absurd rfl herr

/-- Settles O52: the error that a command raises is the rejection with that kind's code and DIAG mask. -/
theorem errorsArePrecise : Obligations.ErrorsArePrecise := by
  intro i s s' h herr
  rw [← raise_oversizeWrite_eq_rejected, ← raise_outOfRangeRead_eq_rejected, ← raise_illegalOp_eq_rejected]
  exact exec_eq_raise_of_error h herr

end Sys2Proof.Machine
end

section
/-! PROOFS. The statements of 70_reset_and_hazards.md: what hardware reset leaves, and how long a received frame lasts in `RX`. -/

namespace Sys2Proof.Machine

open Sys2Proof.Claims

/-! ### Hardware reset (R250) -/

theorem State.SameButStale.refl (s : State) : s.SameButStale s := ⟨⟨rfl, rfl⟩, ⟨rfl, rfl⟩, rfl, rfl, rfl, rfl, rfl⟩

/-- The frame of a unit at power-up is the default header with no payload. -/
theorem Fbu.atReset_raw : Fbu.atReset.raw = [0xFF, 0x01, 0x00, 0x00] := Fbu.raw_of_header rfl rfl rfl rfl

/-- Settles O1: a step that takes `rst` answers the reset state itself, with the presentations still waiting. -/
theorem resetLeavesTheSpecifiedState : Obligations.ResetLeavesTheSpecifiedState :=
  ⟨⟨Fbu.atReset_raw, rfl, Fbu.atReset_raw, rfl, rfl, rfl, rfl, rfl, rfl, rfl, rfl⟩,
    fun _ _ hin => ⟨_, step_of_rst hin, .refl _⟩⟩

/-! ### The frame in `RX` before the next length byte (R253) -/

/-- How many stream bytes the deframer takes at least before it reaches one that writes `RX`. -/
def bytesSparingRx (s : State) : Nat :=
  match s.dfr.state with
  | .start => 3
  | .device => 2
  | .command => 1
  | .length | .data => 0

/-- Ahead of the length byte, a byte leaves `RX` alone and brings the deframer at most one byte nearer to it. A byte discarded in
START brings it no nearer. -/
theorem deframerStep_spares_rx {b : Byte} {s s' : State} (hs : bytesSparingRx s ≠ 0)
    (hfeed : deframerStep b s = .next s') : s'.rx = s.rx ∧ bytesSparingRx s ≤ bytesSparingRx s' + 1 := by
  cases hst : s.dfr.state with
  | start =>
    by_cases hb : b = 0xFF
    · subst hb
      cases (deframerStep_marker hst).symm.trans hfeed
      exact ⟨rfl, by simp [bytesSparingRx, hst]⟩
    · cases (deframerStep_discard hst hb).symm.trans hfeed
      exact ⟨rfl, Nat.le_succ _⟩
  | device =>
    cases (deframerStep_device hst b).symm.trans hfeed
    exact ⟨rfl, by simp [bytesSparingRx, hst]⟩
  | command =>
    cases (deframerStep_command hst b).symm.trans hfeed
    exact ⟨rfl, by simp [bytesSparingRx, hst]⟩
  | length | data => exact absurd (by simp [bytesSparingRx, hst]) hs

/-- So as many bytes as that leave `RX` alone, by induction on the bytes. -/
theorem run_spares_rx {s : State} (bs : List Byte) (hle : bs.length ≤ bytesSparingRx s) :
    ∃ s', Host.Core.run Sys2Proof.core bs.length (s.streaming bs) = .next s' ∧ s'.rx = s.rx := by
  induction bs generalizing s with
  | nil => exact ⟨_, rfl, rfl⟩
  | cons b bs ih =>
    rw [List.length_cons] at hle
    obtain ⟨s1, hfeed⟩ := deframerStep_proceeds b (s.streaming bs)
    obtain ⟨hrx1, hnear⟩ := deframerStep_spares_rx (s := s.streaming bs) (Nat.ne_zero_of_lt hle) hfeed
    obtain ⟨s', hrun, hrx⟩ :=
      ih (s := { s1 with frameDone := s1.resp.done }) (Nat.le_of_succ_le_succ (hle.trans hnear))
    exact ⟨s', (core_run_succ bs.length (step_streaming hfeed)).trans hrun, hrx.trans hrx1⟩

/-- A marker and two more bytes lead to LENGTH with those two captured. -/
theorem run_header_captures {s : State} (hs : s.dfr.state = .start) (d c : Byte) (bs : List Byte) (k : Nat) :
    ∃ s' : State, Host.Core.run Sys2Proof.core (k + 3) (s.streaming (0xFF :: d :: c :: bs)) =
        Host.Core.run Sys2Proof.core k (s'.streaming bs) ∧
      s'.dfr = ⟨.length, d, c, s.dfr.capLen⟩ ∧ s'.rx = s.rx := by
  refine ⟨{ s with dfr := ⟨.length, d, c, s.dfr.capLen⟩, resp := feedResp false, frameDone := false }, ?_, rfl, rfl⟩
  exact Eq.trans (core_run_succ (k + 2) (step_streaming (deframerStep_marker hs)))
    (Eq.trans (core_run_succ (k + 1) (step_streaming (deframerStep_device rfl d)))
      (core_run_succ k (step_streaming (deframerStep_command rfl c))))

/-- A marker and a header reset `RX` to the header's device and command id, whatever length the header declares. -/
theorem run_header_resets_rx {s : State} (hs : s.dfr.state = .start) (d c n : Byte) :
    ∃ s', Host.Core.run Sys2Proof.core 4 (s.streaming [0xFF, d, c, n]) = .next s' ∧ s'.rx = s.rx.frameReset c d := by
  obtain ⟨s3, hheader, hdfr, hrx⟩ := run_header_captures hs d c [n] 1
  have hlength : (s3.streaming []).dfr.state = .length := congrArg Dfr.state hdfr
  obtain ⟨_, _, _, hfeed, -⟩ := deframerStep_length hlength n
  refine ⟨_, hheader.trans (core_run_succ 0 (step_streaming hfeed)), ?_⟩
  change s3.rx.frameReset s3.dfr.capCmd s3.dfr.capDev = s.rx.frameReset c d
  rw [hdfr, hrx]

/-- Settles O47: in START three bytes spare `RX`, and the length byte of a header empties it. -/
theorem rxFrameOutlivesThreeBytes : Obligations.RxFrameOutlivesThreeBytes := by
  intro s hinv hs
  constructor
  · intro bs hlen
    have hspared : bs.length ≤ bytesSparingRx s := by simp [bytesSparingRx, hs, hlen]
    exact hlen ▸ run_spares_rx bs hspared
  · intro d c n
    obtain ⟨-, ⟨hwf, -⟩, -, -⟩ := hinv
    obtain ⟨s', hrun, hrx⟩ := run_header_resets_rx hs d c n
    exact ⟨s', hrun, hrx ▸ Fbu.frameReset_raw hwf c d, hrx ▸ Fbu.frameReset_cur s.rx c d⟩

end Sys2Proof.Machine
end
